-- ==== Sys2Proof/Word.lean ====
section
/-! DEFINITION. The bit and the byte of the block: 00_scope.md R11. -/

namespace Sys2Proof

/-- A bit, 0 (`false`) or 1 (`true`): R11. -/
abbrev Bit := Bool

/-- A byte, an unsigned 8-bit value; bit 0 is the least significant: R11. -/
abbrev Byte := BitVec 8

end Sys2Proof
end

