-- ==== Sys2Proof/Syntax.lean ====
section
/-! DEFINITION. One constructor per row of spec/opcode_table.json, and the form in which a row reaches the block. -/

namespace Sys2Proof

/-- The rows of spec/opcode_table.json. The nine operations and the reserved codes are format OPSEL, `decode` is the
pseudo-operation, the last four are the wire formats W1, W2, W3 of 30_encoding.md R70. -/
inductive Instr where
  /-- REV8: R100. -/
  | rev8 (b : Byte)
  /-- ENCCMD: R110. The address operand is wider than its field and unbounded here (D16, log 4). -/
  | enccmd (address : Nat) (payload : Byte)
  /-- LOAD: R120. `m` is the length of `raw`. -/
  | load (raw : List Byte)
  /-- PEEKBIT: R121. -/
  | peekbit
  /-- NEXTBIT: R122. -/
  | nextbit
  /-- READRAW: R123; the port of `n` has 5 bits (R81). -/
  | readraw (n : BitVec 5)
  /-- READREV: R124; the port of `n` has 5 bits (R81). -/
  | readrev (n : BitVec 5)
  /-- STEP: R141. -/
  | step
  /-- RUN: R148. -/
  | run
  /-- The reserved select codes 0x9 to 0xF: R84. -/
  | reserved9
  | reservedA
  | reservedB
  | reservedC
  | reservedD
  | reservedE
  | reservedF
  /-- DECODE, the pseudo-operation `LOAD m, raw ; RUN`: R87, R149. -/
  | decode (raw : List Byte)
  /-- The command frame before the reversal of its bytes: R71. -/
  | cmdFrameB1B2 (address : BitVec 2) (payload : Byte)
  /-- The command frame as its two wire bytes: R71. -/
  | cmdFrameW0W1 (address : BitVec 2) (payload : Byte)
  /-- The inbound message frame: R74. -/
  | frame (length : BitVec 5) (tag : BitVec 2) (data : List Bit)
  /-- One padding bit: R79. -/
  | padding
deriving DecidableEq, Repr

/-- The operand ports beside the select code: R81. A port that an operation does not read may hold anything. -/
structure Ports where
  b       : Byte := 0
  address : Nat := 0
  payload : Byte := 0
  m       : Nat := 0
  raw     : List Byte := []
  n       : BitVec 5 := 0
deriving DecidableEq, Repr

/-- A row of the table as it reaches the block, by the table's `format` column (log 1, log 11, log 12, log 13). -/
inductive Request where
  /-- OPSEL: a 4-bit select code and the operand ports (R80, R81). -/
  | opsel (code : BitVec 4) (ports : Ports)
  /-- PSEUDO: DECODE has no code of its own, only LOAD's operands (R87). -/
  | pseudo (m : Nat) (raw : List Byte)
  /-- WIRE_OUT and WIRE_OUT_PRE_REVERSAL: the two bytes of a command frame, the first in bits 15 to 8 (R71). -/
  | commandFrame (w : BitVec 16)
  /-- WIRE_IN_STREAM_ORDER: the bits of one stream item, in stream order (R74, R79). -/
  | streamItem (bits : List Bit)
deriving DecidableEq, Repr

/-- Why the decoder refuses a request, by name. -/
inductive Reject where
  /-- The byte count `m` is not the number of bytes on the `raw` port: such a LOAD cannot be presented (R81, log 8). -/
  | byteCount (m given : Nat)
  /-- The 16-bit word has the constant bits of neither form of the command frame (R71, R72). -/
  | notACommandFrame (w : BitVec 16)
  /-- No bit at all: neither padding nor a frame (R74, R79). -/
  | emptyItem
  /-- A marker with fewer than 5 bits after it (R74). -/
  | truncatedLength
  /-- Fewer than 2 bits after the length (R74). -/
  | truncatedTag
  /-- Fewer than `length` bits after the tag (R74). -/
  | truncatedData
  /-- Bits left over after one whole item (R74, R79). -/
  | extraBits
deriving DecidableEq, Repr

end Sys2Proof
end

