-- ==== Sys2Proof/Decode.lean ====
section
/-! DEFINITION. The decoder of a request, total, refusing by name, and the encoder: 30_encoding.md. -/

namespace Sys2Proof

open Sys2Proof.Machine

/-- LOAD's operands `m` and `raw[0 .. m-1]` (R81): exactly `m` bytes, or the request cannot be presented (log 8). -/
def readBuffer (m : Nat) (raw : List Byte) : Except Reject (List Byte) :=
  if raw.length = m then .ok raw else .error (.byteCount m raw.length)

/-- The select codes of R80 and the operands of R81; 0x9 to 0xF are the reserved codes of R84. -/
def decodeOp (code : BitVec 4) (p : Ports) : Except Reject Instr :=
  match code.toNat with
  | 0x0 => .ok (.rev8 p.b)
  | 0x1 => .ok (.enccmd p.address p.payload)
  | 0x2 => (readBuffer p.m p.raw).map .load
  | 0x3 => .ok .peekbit
  | 0x4 => .ok .nextbit
  | 0x5 => .ok (.readraw p.n)
  | 0x6 => .ok (.readrev p.n)
  | 0x7 => .ok .step
  | 0x8 => .ok .run
  | 0x9 => .ok .reserved9
  | 0xA => .ok .reservedA
  | 0xB => .ok .reservedB
  | 0xC => .ok .reservedC
  | 0xD => .ok .reservedD
  | 0xE => .ok .reservedE
  | _   => .ok .reservedF

/-- The two forms of the command frame, by the table's mask and match: `0x3F00`/`0x1100` before reversal,
`0xFC00`/`0x8800` on the wire (R71). Their constant bits differ, so no word has both. -/
def decodeCommandFrame (w : BitVec 16) : Except Reject Instr :=
  if w &&& 0x3F00#16 = 0x1100#16 then
    .ok (.cmdFrameB1B2 (w.extractLsb' 14 2) (w.extractLsb' 0 8))
  else if w &&& 0xFC00#16 = 0x8800#16 then
    .ok (.cmdFrameW0W1 (BitVec.ofBool (w.getLsbD 8) ++ BitVec.ofBool (w.getLsbD 9)) (reverse8 (w.extractLsb' 0 8)))
  else
    .error (.notACommandFrame w)

/-- One stream item from the front of a bit sequence, with the bits after it (R74 to R77, R79). The three
truncation tests come in stream order: length, tag, data. -/
def decodeItem : List Bit → Except Reject (Instr × List Bit)
  | []            => .error .emptyItem
  | false :: rest => .ok (.padding, rest)
  | true :: rest  =>
    if rest.length < 5 then .error .truncatedLength
    else if (rest.drop 5).length < 2 then .error .truncatedTag
    else if (rest.drop 7).length < natLsb (rest.take 5) then .error .truncatedData
    else
      .ok (.frame (BitVec.ofNat 5 (natLsb (rest.take 5))) (BitVec.ofNat 2 (natMsb ((rest.drop 5).take 2)))
            ((rest.drop 7).take (natLsb (rest.take 5))),
           (rest.drop 7).drop (natLsb (rest.take 5)))

/-- A stream item with nothing after it. -/
def decodeWholeItem (bits : List Bit) : Except Reject Instr :=
  match decodeItem bits with
  | .ok (i, [])     => .ok i
  | .ok (_, _ :: _) => .error .extraBits
  | .error e        => .error e

/-- The instruction a request stands for. -/
def decode : Request → Except Reject Instr
  | .opsel code p     => decodeOp code p
  | .pseudo m raw     => (readBuffer m raw).map .decode
  | .commandFrame w   => decodeCommandFrame w
  | .streamItem bits  => decodeWholeItem bits

/-- The request of an instruction, from the tables of R71, R74, R79, R80, R81; ports an operation does not read
are zero. -/
def encode : Instr → Request
  | .rev8 b              => .opsel 0x0 { b := b }
  | .enccmd a p          => .opsel 0x1 { address := a, payload := p }
  | .load raw            => .opsel 0x2 { m := raw.length, raw := raw }
  | .peekbit             => .opsel 0x3 {}
  | .nextbit             => .opsel 0x4 {}
  | .readraw n           => .opsel 0x5 { n := n }
  | .readrev n           => .opsel 0x6 { n := n }
  | .step                => .opsel 0x7 {}
  | .run                 => .opsel 0x8 {}
  | .reserved9           => .opsel 0x9 {}
  | .reservedA           => .opsel 0xA {}
  | .reservedB           => .opsel 0xB {}
  | .reservedC           => .opsel 0xC {}
  | .reservedD           => .opsel 0xD {}
  | .reservedE           => .opsel 0xE {}
  | .reservedF           => .opsel 0xF {}
  | .decode raw          => .pseudo raw.length raw
  | .cmdFrameB1B2 a p    => .commandFrame (commandWordB1B2 a p)
  | .cmdFrameW0W1 a p    => .commandFrame (commandWordW0W1 a p)
  | .frame length tag data => .streamItem (frameBits length tag data)
  | .padding             => .streamItem [false]

/-- A request whose unread ports are zero: the form the encoder writes. -/
def Request.canonical : Request → Bool
  | .opsel code p =>
    match code.toNat with
    | 0x0 => decide (p = { b := p.b })
    | 0x1 => decide (p = { address := p.address, payload := p.payload })
    | 0x2 => decide (p = { m := p.m, raw := p.raw })
    | 0x5 => decide (p = { n := p.n })
    | 0x6 => decide (p = { n := p.n })
    | _   => decide (p = {})
  | .pseudo _ _      => true
  | .commandFrame _  => true
  | .streamItem _    => true

/-- The request that a word of the opcode table stands for (log 9): up to 8 bits, the select code in bits 3 to 0
(the mask 0xF of the OPSEL rows) with every operand port zero; up to 16 bits, the two bytes of a command frame; no
row of the table is wider, and a wider word gives the empty stream item, which the decoder refuses. -/
def requestOfWord (nbits w : Nat) : Request :=
  if nbits ≤ 8 then .opsel (BitVec.ofNat 4 w) {}
  else if nbits ≤ 16 then .commandFrame (BitVec.ofNat 16 w)
  else .streamItem []

/-- The instruction the decoder reads from a word of the opcode table. -/
def decodeTableWord (nbits w : Nat) : Option Instr :=
  (decode (requestOfWord nbits w)).toOption

end Sys2Proof
end

