-- ==== Sys2Proof/Config.lean ====
section
/-! DEFINITION. The parameters of the block that the spec leaves to the implementation: 00_scope.md R9. -/

namespace Sys2Proof

/-- What one implementation fixes. The step never changes it; it stands in State so that every claim over all
states holds for every value of it (log 2, log 3). -/
structure Config where
  /-- `BUF_BYTES`, the most bytes one LOAD may deliver: R9, D2. -/
  bufBytes : Nat := 80
  /-- Whether the most significant bit of a reversed byte comes first in the stream: R52 says yes (D1); `false` is
  the other reading that U11 asks a cautious model to keep expressible. -/
  msbFirstOfReversed : Bool := true
deriving DecidableEq, Repr

/-- `CW`, the width of the cursor: the least `w` with `2^w > 8 * BUF_BYTES` (R9). -/
def Config.cursorWidth (c : Config) : Nat := Nat.size (8 * c.bufBytes)

end Sys2Proof
end

