-- ==== Sys2Proof/Machine/State.lean ====
section
/-! DEFINITION. The state of the block (10_state.md R20 to R36), its reset, and the reasons a step can stop. -/

namespace Sys2Proof.Machine

/-- The decoder's states: R24, with the spec's sixth value `halted` for "decoding ends" (D6). -/
inductive Fsm where
  | scanning
  | readLength
  | readTag
  | readData
  | emit
  | halted
deriving DecidableEq, Repr

/-- A decoded message: R28. -/
structure Message where
  tag    : BitVec 2
  length : BitVec 5
  data   : List Bit
deriving DecidableEq, Repr

/-- The status of an operation: R83. -/
inductive Status where
  | ok
  | endOfStream
  | invalidArgument
deriving DecidableEq, Repr

/-- The result of an operation that answers `OK`: the third column of R81. -/
inductive Result where
  /-- REV8. -/
  | byte (b : Byte)
  /-- ENCCMD: `w0`, `w1`. -/
  | wire (w0 w1 : Byte)
  /-- LOAD has none. -/
  | nothing
  /-- PEEKBIT, NEXTBIT. -/
  | bit (v : Bit)
  /-- READRAW. -/
  | bits (v : List Bit)
  /-- READREV. -/
  | number (v : Nat)
  /-- STEP: FSM after it, and the message when it was an Emit. -/
  | stepped (fsm : Fsm) (message : Option Message)
  /-- RUN, DECODE: the whole of OUT. -/
  | messages (out : List Message)
deriving DecidableEq, Repr

/-- What the block answers: a result on status `OK`, none on any other (R81). -/
inductive Answer where
  | success (result : Result)
  | failure (status : Status)
deriving DecidableEq, Repr

/-- The byte memory: address and byte pairs, addresses strictly rising; an unlisted address holds nothing (log 6). -/
abbrev Memory := List Host.Cell

/-- The eight items of R20, and the model's own fields `cfg` (log 2, log 3), `pending` and `answer` (log 1). -/
structure State where
  /-- The implementation's parameters; no step changes them. -/
  cfg     : Config
  /-- `NB`, the normalised bytes: R21. -/
  nb      : Memory
  /-- `BLEN`, the number of bytes loaded: R22. -/
  blen    : Nat
  /-- `CUR`, the cursor: R23. -/
  cur     : Nat
  /-- `FSM`: R24. -/
  fsm     : Fsm
  /-- `LEN`: R25. -/
  len     : BitVec 5
  /-- `TAG`: R26. -/
  tag     : BitVec 2
  /-- `DATA`: R27. -/
  data    : List Bit
  /-- `OUT`: R28. -/
  out     : List Message
  /-- The host's requests not yet executed, oldest first. -/
  pending : List Request
  /-- The answer to the last request executed. -/
  answer  : Option Answer
deriving DecidableEq, Repr

/-- Reasons to stop with a fault. Neither can arise in a state that meets the invariant of Safety.lean. -/
inductive Fault where
  /-- Raised by a bit read whose byte no LOAD has written (R21: such an entry is no part of the state). Safe. -/
  | unwrittenByte (address : Nat)
  /-- Raised by RUN if `5 * L + 5` transitions did not reach Halted (R151 says they do). Safe. -/
  | runOutOfFuel
deriving DecidableEq, Repr

/-- Reasons to refuse. -/
inductive Refusal where
  /-- Raised by exec's arm for an instruction without a meaning; no arm does. Safe. -/
  | notModelled (mnemonic : String)
  /-- Raised by the seven reserved select codes (R84, D21). Safe. -/
  | reservedSelect (code : BitVec 4)
  /-- Raised by LOAD and DECODE of more than `BUF_BYTES` bytes (R85, D14). Safe. -/
  | loadTooLong (m : Nat)
  /-- Raised by FRAME and PADDING where that item does not stand at the cursor of a scanning decoder (log 13). Safe. -/
  | itemNotAtCursor
  /-- Raised by the step for a request that cannot be presented (log 8). Safe. -/
  | undecodable (reason : Reject)
deriving DecidableEq, Repr

/-- The state after a hardware reset of an implementation with parameters `c` (R36, R190). LEN, TAG and DATA are
unspecified there: 0, 0 and the empty sequence are the model's choice (log 5). -/
def State.resetWith (c : Config) : State where
  cfg     := c
  nb      := []
  blen    := 0
  cur     := 0
  fsm     := .scanning
  len     := 0
  tag     := 0
  data    := []
  out     := []
  pending := []
  answer  := none

/-- The state after reset, at the spec's default parameters (R9). -/
def State.reset : State := State.resetWith {}

end Sys2Proof.Machine
end

