-- ==== Sys2Proof/Machine/Ops.lean ====
section
/-! DEFINITION. The shared operations over the buffer, the cursor and the answer: 20_memory.md, 43_bitstream_reader.md,
60_exceptions.md R176. -/

namespace Sys2Proof.Machine

/-! ### The byte memory -/

/-- The canonical form: addresses strictly rising. An unlisted address holds nothing, so no entry can equal what an
unlisted address reads as. -/
abbrev Memory.wf (m : Memory) : Prop := m.Pairwise (fun x y => x.1 < y.1)

/-- The byte at an address, if one has been written. -/
def Memory.read : Memory → Nat → Option Byte
  | [],          _ => none
  | (k, v) :: r, a => if k = a then some v else Memory.read r a

/-- `MemWrite(a, 8, v)` (R11), in address order. -/
def Memory.write : Memory → Nat → Byte → Memory
  | [],          a, v => [(a, v)]
  | (k, u) :: r, a, v =>
    if a < k then (a, v) :: (k, u) :: r
    else if a = k then (a, v) :: r
    else (k, u) :: Memory.write r a v

/-- Bytes written one after another from address `a` on. -/
def Memory.writeAll : Memory → Nat → List Byte → Memory
  | m, _, []     => m
  | m, a, v :: r => Memory.writeAll (m.write a v) (a + 1) r

/-! ### The bitstream -/

/-- `L = 8 * BLEN`: R22. -/
def State.bitLen (s : State) : Nat := 8 * s.blen

/-- `L - CUR`, the bits left: R133. -/
def State.bitsLeft (s : State) : Nat := s.bitLen - s.cur

/-- `S[i]` (R52): bit `i mod 8`, in stream order, of `NB[i div 8]`. -/
def State.streamBit (s : State) (i : Nat) : Except Fault Bit :=
  match s.nb.read (i / 8) with
  | some b => .ok (byteBit s.cfg.msbFirstOfReversed b (i % 8))
  | none   => .error (.unwrittenByte (i / 8))

/-- `MemRead(addr, n)` (R11): the bits `S[addr .. addr+n)`. -/
def State.memRead (s : State) (addr : Nat) : Nat → Except Fault (List Bit)
  | 0     => .ok []
  | n + 1 =>
    match s.streamBit addr, s.memRead (addr + 1) n with
    | .ok b,    .ok r    => .ok (b :: r)
    | .ok _,    .error f => .error f
    | .error f, _        => .error f

/-- What a read of bits at the cursor finds: all of them, or that too few are left (R125: all-or-nothing). -/
inductive Fetched where
  | bits (v : List Bit)
  | endOfStream
  | fault (f : Fault)
deriving DecidableEq, Repr

/-- The `n` bits at the cursor, if that many are left: the one range test of the reader (R133). -/
def State.fetchBits (s : State) (n : Nat) : Fetched :=
  if s.bitsLeft < n then .endOfStream
  else
    match s.memRead s.cur n with
    | .ok v    => .bits v
    | .error f => .fault f

/-- Every reading operation and every reading transition: `found` when the bits are there, `ended` when too few are
left. -/
def reading (s : State) (n : Nat) (found : List Bit → State) (ended : State) : Host.Outcome State Fault Refusal :=
  match s.fetchBits n with
  | .bits v      => .next (found v)
  | .endOfStream => .next ended
  | .fault f     => .fault f

/-- `CUR <- CUR + n`. -/
def State.advance (s : State) (n : Nat) : State := { s with cur := s.cur + n }

/-- Bit 0 of a sequence just read with at least one bit. -/
def firstBit (v : List Bit) : Bit := v.headD false

/-! ### Answers, errors, sequencing -/

/-- `return v`: status `OK` and the result (R11, R81). -/
def State.succeed (s : State) (r : Result) : State := { s with answer := some (.success r) }

/-- Error entry, case (a) of R176: the status answered in place of `OK`, with no state of the block written and no
result. There is no vector, saved register or mode, and nothing to return from (R178). -/
def State.raise (s : State) (st : Status) : State := { s with answer := some (.failure st) }

/-- Error entry, case (b) of R176: inside the decoder an end of stream is `FSM <- Halted` and nothing else (R173,
R174). -/
def State.haltPass (s : State) : State := { s with fsm := .halted }

/-- Run the second operation in the state the first one leaves. -/
def andThen (o : Host.Outcome State Fault Refusal) (k : State → Host.Outcome State Fault Refusal) :
    Host.Outcome State Fault Refusal :=
  match o with
  | .next s    => k s
  | .fault f   => .fault f
  | .refused r => .refused r

/-! ### LOAD -/

/-- R120: the normalised bytes, BLEN, CUR, FSM and OUT; LEN, TAG and DATA are not written. Entries of NB at and
beyond BLEN are no part of the state (R21), so nothing of an earlier buffer stays (log 6). -/
def loadBuffer (raw : List Byte) (s : State) : Host.Outcome State Fault Refusal :=
  if s.cfg.bufBytes < raw.length then .refused (.loadTooLong raw.length)
  else
    .next ({ s with
      nb   := Memory.writeAll [] 0 (raw.map reverse8)
      blen := raw.length
      cur  := 0
      fsm  := .scanning
      out  := [] }.succeed .nothing)

/-! ### The frame decoder -/

/-- R142: one bit, consumed whatever its value; a `1` is the marker. -/
def stepScanning (s : State) : Host.Outcome State Fault Refusal :=
  reading s 1
    (fun v => if firstBit v then { s.advance 1 with fsm := .readLength } else s.advance 1)
    s.haltPass

/-- R143: the reversed 5-bit length. -/
def stepReadLength (s : State) : Host.Outcome State Fault Refusal :=
  reading s 5
    (fun v => { s.advance 5 with len := BitVec.ofNat 5 (natLsb v), fsm := .readTag })
    s.haltPass

/-- R144: the 2-bit tag in natural order. -/
def stepReadTag (s : State) : Host.Outcome State Fault Refusal :=
  reading s 2
    (fun v => { s.advance 2 with tag := BitVec.ofNat 2 (natMsb v), fsm := .readData })
    s.haltPass

/-- R145: `LEN` data bits in stream order. -/
def stepReadData (s : State) : Host.Outcome State Fault Refusal :=
  reading s s.len.toNat
    (fun v => { s.advance s.len.toNat with data := v, fsm := .emit })
    s.haltPass

/-- The message of the frame in progress: R146. -/
def State.message (s : State) : Message := { tag := s.tag, length := s.len, data := s.data }

/-- R146: append the message, back to scanning; no bit is consumed. -/
def stepEmit (s : State) : Host.Outcome State Fault Refusal :=
  .next { s with out := s.out ++ [s.message], fsm := .scanning }

/-- R141: exactly one transition, chosen by FSM; in `Halted` nothing changes (R147). -/
def transition (s : State) : Host.Outcome State Fault Refusal :=
  match s.fsm with
  | .scanning   => stepScanning s
  | .readLength => stepReadLength s
  | .readTag    => stepReadTag s
  | .readData   => stepReadData s
  | .emit       => stepEmit s
  | .halted     => .next s

/-- The message that the transition out of this state emits (R141, R146). -/
def State.emitted (s : State) : Option Message :=
  match s.fsm with
  | .emit       => some s.message
  | .scanning   => none
  | .readLength => none
  | .readTag    => none
  | .readData   => none
  | .halted     => none

/-- One transition and its answer: FSM after it, with the message when it was an Emit (R141). -/
def stepOnce (s : State) : Host.Outcome State Fault Refusal :=
  andThen (transition s) (fun t => .next (t.succeed (.stepped t.fsm s.emitted)))

/-- Several STEPs, one after another. -/
def stepTimes : Nat → State → Host.Outcome State Fault Refusal
  | 0,     s => .next s
  | k + 1, s => andThen (stepOnce s) (stepTimes k)

/-- `while FSM != Halted: STEP()` (R148) under fuel. -/
def runLoop : Nat → State → Host.Outcome State Fault Refusal
  | 0,     s => if s.fsm = .halted then .next s else .fault .runOutOfFuel
  | k + 1, s => if s.fsm = .halted then .next s else andThen (transition s) (runLoop k)

/-- RUN (R148): the loop under the `5 * L + 5` transitions that R151 shows to be enough, then `return OUT`. -/
def runPass (s : State) : Host.Outcome State Fault Refusal :=
  andThen (runLoop (5 * s.bitLen + 5) s) (fun t => .next (t.succeed (.messages t.out)))

/-- Whether a scanning decoder has exactly these bits at its cursor. -/
def State.itemAtCursor (s : State) (bits : List Bit) : Bool :=
  decide (s.fsm = .scanning ∧ s.fetchBits bits.length = .bits bits)

end Sys2Proof.Machine
end

