-- ==== Sys2Proof/Machine/Decoder.lean ====
section
/-! DEFINITION. Unit U4, the frame decoder: 44_frame_decoder.md, and the inbound wire formats W2 and W3 of
30_encoding.md R74, R79. -/

namespace Sys2Proof.Machine

/-- STEP (R141). -/
def execStep (s : State) : Host.Outcome State Fault Refusal :=
  stepOnce s

/-- RUN (R148). -/
def execRun (s : State) : Host.Outcome State Fault Refusal :=
  runPass s

/-- DECODE (R87, R149): `LOAD m, raw ; RUN`, with the result of the RUN. -/
def execDecode (raw : List Byte) (s : State) : Host.Outcome State Fault Refusal :=
  andThen (loadBuffer raw s) runPass

/-- FRAME (R74): where the frame stands at the cursor of a scanning decoder, the five STEPs of R142 to R146 that
consume it and emit its message; anywhere else these bits are no frame (R159, log 13). -/
def execFrame (length : BitVec 5) (tag : BitVec 2) (data : List Bit) (s : State) :
    Host.Outcome State Fault Refusal :=
  if s.itemAtCursor (frameBits length tag data) ∧ data.length = length.toNat then stepTimes 5 s
  else .refused .itemNotAtCursor

/-- PADDING (R79): where a scanning decoder has a `0` bit at its cursor, the STEP of R142 that consumes it; anywhere
else a `0` bit is no padding (log 13). -/
def execPadding (s : State) : Host.Outcome State Fault Refusal :=
  if s.itemAtCursor [false] then stepTimes 1 s
  else .refused .itemNotAtCursor

end Sys2Proof.Machine
end

