-- ==== Sys2Proof/Machine/Encoder.lean ====
section
/-! DEFINITION. Unit U3, the command encoder: 42_command_encoder.md, and the outbound wire format W1 of
30_encoding.md R71. -/

namespace Sys2Proof.Machine

/-- ENCCMD (R110): the address check before anything else (D28), then the two reversed bytes, `w0` first. -/
def execEnccmd (address : Nat) (payload : Byte) (s : State) : Host.Outcome State Fault Refusal :=
  if 3 < address then .next (s.raise .invalidArgument)
  else .next (s.succeed (.wire (reverse8 (commandByte address)) (reverse8 payload)))

/-- CMDFRAME.b1b2 (R71): the two bytes of a command before reversal; what the encoder does with them is the last line
of R110, `return (REV8(b1), REV8(b2))` (log 12). -/
def execCmdFrameB1B2 (address : BitVec 2) (payload : Byte) (s : State) : Host.Outcome State Fault Refusal :=
  .next (s.succeed (.wire (reverse8 (firstByte (commandWordB1B2 address payload)))
    (reverse8 (secondByte (commandWordB1B2 address payload)))))

/-- CMDFRAME.w0w1 (R71): the two wire bytes, which the encoder hands to the host for transmission (R113, log 12). -/
def execCmdFrameW0W1 (address : BitVec 2) (payload : Byte) (s : State) : Host.Outcome State Fault Refusal :=
  .next (s.succeed (.wire (firstByte (commandWordW0W1 address payload))
    (secondByte (commandWordW0W1 address payload))))

end Sys2Proof.Machine
end

