-- ==== Sys2Proof/Machine/Reader.lean ====
section
/-! DEFINITION. Unit U2, the bitstream reader: 43_bitstream_reader.md. -/

namespace Sys2Proof.Machine

/-- LOAD (R120). -/
def execLoad (raw : List Byte) (s : State) : Host.Outcome State Fault Refusal :=
  loadBuffer raw s

/-- PEEKBIT (R121): the bit at the cursor, nothing consumed. -/
def execPeekbit (s : State) : Host.Outcome State Fault Refusal :=
  reading s 1 (fun v => s.succeed (.bit (firstBit v))) (s.raise .endOfStream)

/-- NEXTBIT (R122): the bit at the cursor, consumed. -/
def execNextbit (s : State) : Host.Outcome State Fault Refusal :=
  reading s 1 (fun v => (s.advance 1).succeed (.bit (firstBit v))) (s.raise .endOfStream)

/-- READRAW (R123): `n` bits in stream order, all or nothing. -/
def execReadraw (n : BitVec 5) (s : State) : Host.Outcome State Fault Refusal :=
  reading s n.toNat (fun v => (s.advance n.toNat).succeed (.bits v)) (s.raise .endOfStream)

/-- READREV (R124): `n` bits as a number, the first bit read the least significant, all or nothing. -/
def execReadrev (n : BitVec 5) (s : State) : Host.Outcome State Fault Refusal :=
  reading s n.toNat (fun v => (s.advance n.toNat).succeed (.number (natLsb v))) (s.raise .endOfStream)

end Sys2Proof.Machine
end

