-- ==== Sys2Proof/Machine/Reserved.lean ====
section
/-! DEFINITION. The reserved select codes 0x9 to 0xF: 30_encoding.md R84. "A model must refuse a request with a
reserved code: it gives it no meaning, neither a no-op nor a fault." -/

namespace Sys2Proof.Machine

/-- Select code 0x9: R84, D21. -/
def execReserved9 (_s : State) : Host.Outcome State Fault Refusal :=
  .refused (.reservedSelect 0x9)

/-- Select code 0xA: R84, D21. -/
def execReservedA (_s : State) : Host.Outcome State Fault Refusal :=
  .refused (.reservedSelect 0xA)

/-- Select code 0xB: R84, D21. -/
def execReservedB (_s : State) : Host.Outcome State Fault Refusal :=
  .refused (.reservedSelect 0xB)

/-- Select code 0xC: R84, D21. -/
def execReservedC (_s : State) : Host.Outcome State Fault Refusal :=
  .refused (.reservedSelect 0xC)

/-- Select code 0xD: R84, D21. -/
def execReservedD (_s : State) : Host.Outcome State Fault Refusal :=
  .refused (.reservedSelect 0xD)

/-- Select code 0xE: R84, D21. -/
def execReservedE (_s : State) : Host.Outcome State Fault Refusal :=
  .refused (.reservedSelect 0xE)

/-- Select code 0xF: R84, D21. -/
def execReservedF (_s : State) : Host.Outcome State Fault Refusal :=
  .refused (.reservedSelect 0xF)

end Sys2Proof.Machine
end

