-- ==== Sys2Proof/Machine/Reversal.lean ====
section
/-! DEFINITION. Unit U1, bit reversal: 41_bit_reversal.md. -/

namespace Sys2Proof.Machine

/-- REV8 (R100): total, no state of the block read or written. -/
def execRev8 (b : Byte) (s : State) : Host.Outcome State Fault Refusal :=
  .next (s.succeed (.byte (reverse8 b)))

end Sys2Proof.Machine
end

