-- ==== Sys2Proof/Machine/Dispatch.lean ====
section
/-! DEFINITION. The meaning of each row of spec/opcode_table.json. -/

namespace Sys2Proof.Machine

def exec (i : Instr) (s : State) : Host.Outcome State Fault Refusal :=
  match i with
  | .rev8 b => Sys2Proof.Machine.execRev8 b s
  | .enccmd address payload => Sys2Proof.Machine.execEnccmd address payload s
  | .load raw => Sys2Proof.Machine.execLoad raw s
  | .peekbit => Sys2Proof.Machine.execPeekbit s
  | .nextbit => Sys2Proof.Machine.execNextbit s
  | .readraw n => Sys2Proof.Machine.execReadraw n s
  | .readrev n => Sys2Proof.Machine.execReadrev n s
  | .step => Sys2Proof.Machine.execStep s
  | .run => Sys2Proof.Machine.execRun s
  | .reserved9 => Sys2Proof.Machine.execReserved9 s
  | .reservedA => Sys2Proof.Machine.execReservedA s
  | .reservedB => Sys2Proof.Machine.execReservedB s
  | .reservedC => Sys2Proof.Machine.execReservedC s
  | .reservedD => Sys2Proof.Machine.execReservedD s
  | .reservedE => Sys2Proof.Machine.execReservedE s
  | .reservedF => Sys2Proof.Machine.execReservedF s
  | .decode raw => Sys2Proof.Machine.execDecode raw s
  | .cmdFrameB1B2 address payload => Sys2Proof.Machine.execCmdFrameB1B2 address payload s
  | .cmdFrameW0W1 address payload => Sys2Proof.Machine.execCmdFrameW0W1 address payload s
  | .frame length tag data => Sys2Proof.Machine.execFrame length tag data s
  | .padding => Sys2Proof.Machine.execPadding s

end Sys2Proof.Machine
end

