-- ==== Sys2Proof/Machine/Step.lean ====
section
/-! DEFINITION. One step: the oldest request of the host is decoded and executed (00_scope.md R7, R8). -/

namespace Sys2Proof.Machine

/-- One atomic operation (R7). With no request pending the block does nothing: nothing happens asynchronously
(R179, log 1). -/
def step (s : State) : Host.Outcome State Fault Refusal :=
  match s.pending with
  | []     => .next s
  | r :: q =>
    match Sys2Proof.decode r with
    | .ok i    => exec i { s with pending := q }
    | .error e => .refused (.undecodable e)

/-- The host requests next the instruction that a word of the opcode table stands for (log 1, log 9). -/
def State.withFetchWord (s : State) (nbits w : Nat) : State :=
  { s with pending := requestOfWord nbits w :: s.pending }

end Sys2Proof.Machine
end

