-- ==== Sys2Proof/Machine/Flags.lean ====
section
/-! DEFINITION. The block has no flags (10_state.md R31). What it has in their place: the codes of FSM and of the
status (30_encoding.md R82, R83) and the packed words of R88. -/

namespace Sys2Proof.Machine

/-- The 3-bit code of the FSM register: R82. -/
def Fsm.code : Fsm → BitVec 3
  | .scanning   => 0
  | .readLength => 1
  | .readTag    => 2
  | .readData   => 3
  | .emit       => 4
  | .halted     => 5

/-- The state a 3-bit code stands for; 6 and 7 stand for none (R82). -/
def Fsm.ofCode (c : BitVec 3) : Option Fsm :=
  match c.toNat with
  | 0 => some .scanning
  | 1 => some .readLength
  | 2 => some .readTag
  | 3 => some .readData
  | 4 => some .emit
  | 5 => some .halted
  | _ => none

/-- The 2-bit status code: R83. -/
def Status.code : Status → BitVec 2
  | .ok              => 0
  | .endOfStream     => 1
  | .invalidArgument => 2

/-- The status a 2-bit code stands for; 3 stands for none (R83). -/
def Status.ofCode (c : BitVec 2) : Option Status :=
  match c.toNat with
  | 0 => some .ok
  | 1 => some .endOfStream
  | 2 => some .invalidArgument
  | _ => none

/-- The status an answer carries. -/
def Answer.status : Answer → Status
  | .success _  => .ok
  | .failure st => st

/-- A bit sequence in a 31-bit word, right-aligned, first bit most significant: R88. -/
def packBits (s : List Bit) : BitVec 31 := BitVec.ofNat 31 (natMsb s)

/-- The sequence of length `n` that a 31-bit word carries: R88. -/
def unpackBits (n : Nat) (w : BitVec 31) : List Bit := bitsMsb n w.toNat

/-- A message in a 38-bit word: bits 37 to 36 tag, 35 to 31 length, 30 to 0 data (R88). -/
def packMessage (m : Message) : BitVec 38 := m.tag ++ m.length ++ packBits m.data

/-- The message that a 38-bit word carries: R88. -/
def unpackMessage (w : BitVec 38) : Message where
  tag    := w.extractLsb' 36 2
  length := w.extractLsb' 31 5
  data   := unpackBits (w.extractLsb' 31 5).toNat (w.extractLsb' 0 31)

end Sys2Proof.Machine
end

