-- ==== Sys2Proof/Safety.lean ====
section
/-! DEFINITION. The terms that claims are stated in: the invariant of 10_state.md R34, the reachable states, the
measure of R151, the stream of R53, the decoder as one function (R150), the layout of frames in a stream (R74, R79). -/

namespace Sys2Proof.Machine

/-- `data.size() == length`: R28, R157. -/
def Message.wf (m : Message) : Prop := m.data.length = m.length.toNat

/-- Header bits of the frame in progress that the cursor has passed and no message of OUT accounts for: marker 1,
length 5, tag 2 (R74). -/
def Fsm.headerBitsRead : Fsm → Nat
  | .scanning   => 0
  | .readLength => 1
  | .readTag    => 6
  | .readData   => 8
  | .emit       => 8
  | .halted     => 0

/-- The invariant: R34 items 1, 2, 5, 6 and 8 (item 7 holds by the type of `fsm`), with what the byte memory holds
(R21) and the count behind the bound of R156. -/
structure State.Inv (s : State) : Prop where
  /-- R34.1. -/
  bufferFits : s.blen ≤ s.cfg.bufBytes
  /-- The memory is in canonical form. -/
  memoryWf : Memory.wf s.nb
  /-- R21: the entries `0 .. BLEN-1` are the valid ones. -/
  validEntries : ∀ j, (s.nb.read j).isSome = true ↔ j < s.blen
  /-- R34.2. -/
  cursorInStream : s.cur ≤ s.bitLen
  /-- R156: every message took at least 8 bits, and no bit was consumed twice; with R34.2 this gives R34.5. -/
  messagesPaidFor : 8 * s.out.length + s.fsm.headerBitsRead ≤ s.cur
  /-- R34.6. -/
  messagesWf : ∀ m ∈ s.out, m.wf
  /-- R34.8. -/
  emitWf : s.fsm = .emit → s.data.length = s.len.toNat

/-- The states the block can be in after a reset at parameters `c`: the host may request anything at any time (R180),
and the block executes (R8). -/
inductive Reachable (c : Config) : State → Prop where
  | reset : Reachable c (State.resetWith c)
  | request {s : State} (r : Request) : Reachable c s → Reachable c { s with pending := s.pending ++ [r] }
  | step {s t : State} : Reachable c s → step s = .next t → Reachable c t

/-- The operations that load a buffer and so begin a new pass (R23, R120, R149). -/
def startsPass : Instr → Bool
  | .load _           => true
  | .decode _         => true
  | .rev8 _           => false
  | .enccmd _ _       => false
  | .peekbit          => false
  | .nextbit          => false
  | .readraw _        => false
  | .readrev _        => false
  | .step             => false
  | .run              => false
  | .reserved9        => false
  | .reservedA        => false
  | .reservedB        => false
  | .reservedC        => false
  | .reservedD        => false
  | .reservedE        => false
  | .reservedF        => false
  | .cmdFrameB1B2 _ _ => false
  | .cmdFrameW0W1 _ _ => false
  | .frame _ _ _      => false
  | .padding          => false

/-- `S[a + i]` is `v[i]` for every index of `v`: what `MemRead(a, |v|) = v` says bit by bit (R11). -/
def State.holdsAt (s : State) (a : Nat) (v : List Bit) : Prop :=
  ∀ i b, v[i]? = some b → s.streamBit (a + i) = .ok b

/-- The rows that a host's request may name in every state: the nine operations of R80, DECODE, and the two rows of
the command frame (log 12). The reserved codes (R84) and the items of the stream (log 13) are not among them. -/
def alwaysAdmitted : Instr → Bool
  | .rev8 _           => true
  | .enccmd _ _       => true
  | .load _           => true
  | .peekbit          => true
  | .nextbit          => true
  | .readraw _        => true
  | .readrev _        => true
  | .step             => true
  | .run              => true
  | .decode _         => true
  | .cmdFrameB1B2 _ _ => true
  | .cmdFrameW0W1 _ _ => true
  | .reserved9        => false
  | .reservedA        => false
  | .reservedB        => false
  | .reservedC        => false
  | .reservedD        => false
  | .reservedE        => false
  | .reservedF        => false
  | .frame _ _ _      => false
  | .padding          => false

/-- The four reads of the bitstream reader (R121 to R124). -/
def readsStream (i : Instr) : Prop :=
  i = .peekbit ∨ i = .nextbit ∨ (∃ n, i = .readraw n) ∨ ∃ n, i = .readrev n

/-- Two states that may differ in LEN, TAG, DATA and the last answer only. -/
def State.SameButFields (s s' : State) : Prop :=
  s'.cfg = s.cfg ∧ s'.nb = s.nb ∧ s'.blen = s.blen ∧ s'.cur = s.cur ∧ s'.fsm = s.fsm ∧ s'.out = s.out ∧
    s'.pending = s.pending

/-- Two states that agree wherever a register of the frame in progress is meaningful: LEN in ReadTag, ReadData and
Emit (R25), TAG in ReadData and Emit (R26), DATA in Emit (R27). Elsewhere the register is stale and may differ. -/
structure State.SameMeaning (s s' : State) : Prop where
  /-- Everything but the three registers and the last answer. -/
  rest   : s.SameButFields s'
  /-- R25. -/
  length : s.fsm = .readTag ∨ s.fsm = .readData ∨ s.fsm = .emit → s'.len = s.len
  /-- R26. -/
  tag    : s.fsm = .readData ∨ s.fsm = .emit → s'.tag = s.tag
  /-- R27. -/
  data   : s.fsm = .emit → s'.data = s.data

/-- The weights `w(FSM)` of R151. -/
def Fsm.weight : Fsm → Nat
  | .scanning   => 0
  | .emit       => 1
  | .readData   => 2
  | .readTag    => 3
  | .readLength => 4
  | .halted     => 0

/-- `mu = 5 * (L - CUR) + w(FSM)`: R151. -/
def State.mu (s : State) : Nat := 5 * s.bitsLeft + s.fsm.weight

/-- The stream of a raw buffer: `S[8j+k] = raw[j][k]` (R53); under the other reading of U11, `raw[j][7-k]`. -/
def rawStream (msbFirst : Bool) (raw : List Byte) : List Bit :=
  raw.flatMap fun b => (List.range 8).map fun k => if msbFirst then b.getLsbD k else b.getLsbD (7 - k)

/-- `S[i]` as a number, 0 beyond the end. -/
def bitAt (S : List Bit) (i : Nat) : Nat := (S.getD i false).toNat

/-- The length field of R150 at address `c` of the marker. -/
def lengthAt (S : List Bit) (c : Nat) : Nat :=
  bitAt S (c + 1) + 2 * bitAt S (c + 2) + 4 * bitAt S (c + 3) + 8 * bitAt S (c + 4) + 16 * bitAt S (c + 5)

/-- The tag field of R150 at address `c` of the marker. -/
def tagAt (S : List Bit) (c : Nat) : Nat := 2 * bitAt S (c + 6) + bitAt S (c + 7)

/-- The message of R150 for the frame whose marker stands at `c`. -/
def messageAt (S : List Bit) (c : Nat) : Message where
  tag    := BitVec.ofNat 2 (tagAt S c)
  length := BitVec.ofNat 5 (lengthAt S c)
  data   := (S.drop (c + 8)).take (lengthAt S c)

/-- `dec(c, out)` of R150, line by line. Each call moves `c` on, so any fuel above `|S|` is enough. -/
def dec (S : List Bit) : Nat → Nat → List Message → List Message
  | 0,        _, out => out
  | fuel + 1, c, out =>
    if S.length ≤ c then out
    else if bitAt S c = 0 then dec S fuel (c + 1) out
    else if S.length - (c + 1) < 5 then out
    else if S.length - (c + 6) < 2 then out
    else if S.length - (c + 8) < lengthAt S c then out
    else dec S fuel (c + 8 + lengthAt S c) (out ++ [messageAt S c])

/-- The bits of the frame that carries a message. -/
def Message.bits (m : Message) : List Bit := frameBits m.length m.tag m.data

/-- Frames laid in a stream, each after some number of padding bits (R74, R79). -/
def layout : List (Nat × Message) → List Bit
  | []          => []
  | (p, m) :: r => List.replicate p false ++ (m.bits ++ layout r)

end Sys2Proof.Machine
end

