-- ==== Sys2Proof/WellFormed.lean ====
section
/-! DEFINITION. Which terms of Instr the spec's encodings can carry. -/

namespace Sys2Proof

/-- The operand checks of R81 and R85 (`m` at most `BUF_BYTES`, for LOAD and for the LOAD inside DECODE) and the
frame's `data.size() == length` (R74); every other operand is in range by its type. -/
def WellFormed (c : Config) : Instr → Bool
  | .load raw           => decide (raw.length ≤ c.bufBytes)
  | .decode raw         => decide (raw.length ≤ c.bufBytes)
  | .frame length _ data => decide (data.length = length.toNat)
  | .rev8 _             => true
  | .enccmd _ _         => true
  | .peekbit            => true
  | .nextbit            => true
  | .readraw _          => true
  | .readrev _          => true
  | .step               => true
  | .run                => true
  | .reserved9          => true
  | .reservedA          => true
  | .reservedB          => true
  | .reservedC          => true
  | .reservedD          => true
  | .reservedE          => true
  | .reservedF          => true
  | .cmdFrameB1B2 _ _   => true
  | .cmdFrameW0W1 _ _   => true
  | .padding            => true

end Sys2Proof
end

