-- ==== Sys2Proof/Certificates/Slice0/Obligations.lean ====
section
/-! DEFINITION. The statements for the provers. Each says which rule of spec/ it formalises, or which choice of the
model it is about. `s.Inv` (Safety.lean) is the invariant of R34; it is a premise where a state that no run reaches
could hold no byte under the cursor, and it is itself stated to hold at reset and to be kept by every step. -/

open Sys2Proof Sys2Proof.Machine

/-! ### Reset -/

/-- R190, R36 (the spec's decision D13): the reset state, at any parameters; and LOAD of the empty buffer leaves the
same items, from any state. LEN, TAG and DATA are unspecified there and nothing is said of them. -/
def Obligations.ResetLeavesAFreshEmptyPass : Prop :=
  ∀ c : Config,
    ((State.resetWith c).blen = 0 ∧ (State.resetWith c).cur = 0 ∧ (State.resetWith c).fsm = .scanning ∧
      (State.resetWith c).out = [] ∧ ∀ j, (State.resetWith c).nb.read j = none) ∧
    ∀ s : State, s.cfg = c → ∃ t, exec (.load []) s = .next t ∧
      t.nb = (State.resetWith c).nb ∧ t.blen = (State.resetWith c).blen ∧ t.cur = (State.resetWith c).cur ∧
      t.fsm = (State.resetWith c).fsm ∧ t.out = (State.resetWith c).out

/-- R191 (the spec's inference from R190, decision D13): what each operation answers straight after reset. -/
def Obligations.ResetStateAnswersAsAnEmptyBuffer : Prop :=
  ∀ c : Config,
    let s := State.resetWith c
    exec .peekbit s = .next { s with answer := some (.failure .endOfStream) } ∧
    exec .nextbit s = .next { s with answer := some (.failure .endOfStream) } ∧
    (∀ n : BitVec 5, 1 ≤ n.toNat →
      exec (.readraw n) s = .next { s with answer := some (.failure .endOfStream) } ∧
      exec (.readrev n) s = .next { s with answer := some (.failure .endOfStream) }) ∧
    exec (.readraw 0) s = .next { s with answer := some (.success (.bits [])) } ∧
    exec (.readrev 0) s = .next { s with answer := some (.success (.number 0)) } ∧
    exec .step s = .next { s with fsm := .halted, answer := some (.success (.stepped .halted none)) } ∧
    exec .run s = .next { s with fsm := .halted, answer := some (.success (.messages [])) } ∧
    (∀ b, exec (.rev8 b) s = .next { s with answer := some (.success (.byte (reverse8 b))) }) ∧
    (∀ a p, a ≤ 3 → exec (.enccmd a p) s =
      .next { s with answer := some (.success (.wire (reverse8 (commandByte a)) (reverse8 p))) })

/-- The reset state, at any parameters, meets the invariant (rests on the reset values of log 5 nowhere: the
invariant says nothing of LEN, TAG and DATA outside Emit). -/
def Obligations.ResetMeetsTheInvariant : Prop :=
  ∀ c : Config, (State.resetWith c).Inv

/-! ### The invariant and the rules about whole passes -/

/-- R34: every step, from every state that meets the invariant, keeps it; the memory's canonical form is in it. -/
def Obligations.EveryStepKeepsTheInvariant : Prop :=
  ∀ s t : State, s.Inv → step s = .next t → t.Inv

/-- R34 (which the spec marks as derived), all nine items, for every state reachable from a reset at any parameters
by any requests. Item 7 is the type of `fsm`; items 3, 4, 5 and 9 say what an operation other than LOAD and DECODE
does. -/
def Obligations.ReachableStatesMeetTheNineInvariants : Prop :=
  ∀ (c : Config) (s : State), Reachable c s →
    s.blen ≤ s.cfg.bufBytes ∧ s.bitLen = 8 * s.blen ∧ s.cur ≤ s.bitLen ∧ s.out.length ≤ s.blen ∧
    (∀ m ∈ s.out, m.tag.toNat ≤ 3 ∧ m.length.toNat ≤ 31 ∧ m.data.length = m.length.toNat) ∧
    (s.fsm = .emit → s.data.length = s.len.toNat) ∧
    ∀ i t, exec i s = .next t → startsPass i = false →
      s.cur ≤ t.cur ∧ (t.nb = s.nb ∧ t.blen = s.blen) ∧ (∃ new, t.out = s.out ++ new) ∧
      (s.fsm = .halted → t.fsm = .halted)

/-- R23, R28, R57, R63: within a pass, from any state, the cursor never goes back, the stream is constant, and
messages are only ever added to the end of OUT. -/
def Obligations.NothingGoesBackWithinAPass : Prop :=
  ∀ i s t, exec i s = .next t → startsPass i = false →
    s.cur ≤ t.cur ∧ (t.bitLen = s.bitLen ∧ (∀ j, t.nb.read j = s.nb.read j) ∧ ∀ a, t.streamBit a = s.streamBit a) ∧
    ∃ new, t.out = s.out ++ new

/-- R147, R178: no operation leaves Halted except LOAD (and DECODE, which begins with one), from any state. -/
def Obligations.OnlyLoadLeavesHalted : Prop :=
  ∀ i s t, exec i s = .next t → s.fsm = .halted → startsPass i = false → t.fsm = .halted ∧ t.cur ≥ s.cur ∧ t.out = s.out

/-- 93_implementation_defined.md, list 1: "every admitted operation in every reachable state has exactly one outcome,
and RUN terminates": every operation completes in every state that meets the invariant. -/
def Obligations.EveryAdmittedOperationCompletes : Prop :=
  ∀ s i, s.Inv → WellFormed s.cfg i = true → alwaysAdmitted i = true → ∃ t a, exec i s = .next t ∧ t.answer = some a

/-- Nothing faults in a state that meets the invariant: neither fault of the model can be reached (log 6, log 14). -/
def Obligations.NothingFaultsUnderTheInvariant : Prop :=
  ∀ s i f, s.Inv → exec i s ≠ .fault f

/-! ### Steps and encodings -/

/-- R7, R8: a step executes the oldest request of the host, with that request taken from the queue, and an idle block
stays as it is. The queue is the model's (log 1). That a request which cannot be presented is refused as `undecodable`
is the model's choice (log 8): no rule gives it. -/
def Obligations.StepExecutesTheOldestRequest : Prop :=
  ∀ s : State,
    (∀ r q i, s.pending = r :: q → decode r = .ok i → step s = exec i { s with pending := q }) ∧
    (∀ r q e, s.pending = r :: q → decode r = .error e → step s = .refused (.undecodable e)) ∧
    (s.pending = [] → step s = .next s)

/-- Decode of encode is the identity on well-formed instructions, all rows (R71, R74 to R77, R79 to R81, R87). -/
def Obligations.DecodeOfEncodeIsTheInstruction : Prop :=
  ∀ c i, WellFormed c i = true → decode (encode i) = .ok i

/-- Encode of decode is the identity on requests whose unread ports are zero: each such request has one meaning. -/
def Obligations.EncodeOfDecodeIsTheRequest : Prop :=
  ∀ r i, decode r = .ok i → r.canonical = true → encode i = r

/-- A few words of the table, written out (R71, R74, R79, R80). That a table word of a select code stands for a request
with every operand port zero, and a 16-bit word for a command frame, is the model's choice (log 9): the clauses about
`decodeTableWord` rest on it. -/
def Obligations.TableWordsDecode : Prop :=
  decodeTableWord 8 0b0000 = some (.rev8 0) ∧ decodeTableWord 8 0b0010 = some (.load []) ∧
  decodeTableWord 8 0b0111 = some .step ∧ decodeTableWord 8 0b1000 = some .run ∧
  decodeTableWord 8 0b1111 = some .reservedF ∧
  decodeTableWord 16 0b1001000110100101 = some (.cmdFrameB1B2 2 0b10100101) ∧
  decodeTableWord 16 0b1000100110110010 = some (.cmdFrameW0W1 2 0b01001101) ∧
  decode (.opsel 0b0101 { n := 5 }) = .ok (.readraw 5) ∧
  decode (.streamItem [true, true, true, false, false, false, false, true, true, false, true]) =
    .ok (.frame 3 1 [true, false, true]) ∧
  decode (.streamItem [false]) = .ok .padding

/-- R84 (the spec's decision D21): a request with a reserved code is refused, whatever stands on the ports; so is
each of the seven rows. -/
def Obligations.ReservedSelectCodesAreRefused : Prop :=
  (∀ (s : State) (code : BitVec 4) (p : Ports) (q : List Request), 9 ≤ code.toNat →
    s.pending = .opsel code p :: q → step s = .refused (.reservedSelect code)) ∧
  ∀ s : State,
    exec .reserved9 s = .refused (.reservedSelect 0x9) ∧ exec .reservedA s = .refused (.reservedSelect 0xA) ∧
    exec .reservedB s = .refused (.reservedSelect 0xB) ∧ exec .reservedC s = .refused (.reservedSelect 0xC) ∧
    exec .reservedD s = .refused (.reservedSelect 0xD) ∧ exec .reservedE s = .refused (.reservedSelect 0xE) ∧
    exec .reservedF s = .refused (.reservedSelect 0xF)

/-- R82 (the spec's decision D6): the codes of FSM; 6 and 7 are the codes of no state. -/
def Obligations.FsmCodesAreOneToOne : Prop :=
  (Fsm.code .scanning = 0 ∧ Fsm.code .readLength = 1 ∧ Fsm.code .readTag = 2 ∧ Fsm.code .readData = 3 ∧
    Fsm.code .emit = 4 ∧ Fsm.code .halted = 5) ∧
  (∀ c f, Fsm.ofCode c = some f ↔ Fsm.code f = c) ∧ ∀ f, Fsm.code f ≠ 6 ∧ Fsm.code f ≠ 7

/-- R83 (the spec's decision D5): the status codes, who answers which, and that STEP and RUN never answer
EndOfStream. -/
def Obligations.StatusesAreAnsweredOnlyByTheirOperations : Prop :=
  (Status.code .ok = 0 ∧ Status.code .endOfStream = 1 ∧ Status.code .invalidArgument = 2) ∧
  (∀ st, Status.code st ≠ 3) ∧
  ∀ i s t, exec i s = .next t → ∃ a, t.answer = some a ∧
    (a.status = .endOfStream → readsStream i) ∧
    (a.status = .invalidArgument → ∃ address payload, i = .enccmd address payload ∧ 3 < address)

/-- R88 (the spec's decision D9): packing a message in 38 bits loses nothing; the fields lie where the rule says;
the rule's example. -/
def Obligations.PackedMessagesUnpack : Prop :=
  (∀ m : Message, m.wf → unpackMessage (packMessage m) = m) ∧
  (∀ m : Message, m.wf → (packMessage m).extractLsb' 36 2 = m.tag ∧ (packMessage m).extractLsb' 31 5 = m.length ∧
    ((packMessage m).extractLsb' 0 31).toNat = natMsb m.data) ∧
  (∀ v : List Bit, v.length ≤ 31 → unpackBits v.length (packBits v) = v ∧
    ∀ i, v.length ≤ i → (packBits v).getLsbD i = false) ∧
  packMessage { tag := 1, length := 3, data := [true, false, true] } = 0x1180000005#38

/-! ### REV8 -/

/-- R100: REV8, select code 0x0, answers the byte with bit `i` from bit `7 - i`, and writes no state of the block. -/
def Obligations.Rev8ReversesEveryBit : Prop :=
  (∀ p : Ports, decode (.opsel 0x0 p) = .ok (.rev8 p.b)) ∧
  ∀ (b : Byte) (s : State), ∃ r : Byte, (∀ i, i < 8 → r.getLsbD i = b.getLsbD (7 - i)) ∧
    exec (.rev8 b) s = .next { s with answer := some (.success (.byte r)) }

/-- R101: an involution, hence a bijection and its own inverse, that keeps the number of set bits. -/
def Obligations.Rev8IsAnInvolution : Prop :=
  (∀ b : Byte, reverse8 (reverse8 b) = b) ∧ Function.Bijective reverse8 ∧
  ∀ b : Byte, ((List.range 8).filter (fun i => (reverse8 b).getLsbD i)).length =
    ((List.range 8).filter (fun i => b.getLsbD i)).length

/-- R102 (the spec's decision D25), R103: the 256-entry table is the same function as the wiring. -/
def Obligations.Rev8TableIsTheWiring : Prop :=
  (∀ b : Byte, reverse8Lookup b = reverse8 b) ∧ (reverse8TableLow ++ reverse8TableHigh).length = 256

/-! ### ENCCMD and the command frame -/

/-- R110: ENCCMD, select code 0x1: the address check, then the two reversed bytes; `b1` never overflows; no state of
the block is written. That a failed call produces neither byte is the spec's decision D28. -/
def Obligations.EnccmdChecksThenAnswersTwoBytes : Prop :=
  (∀ p : Ports, decode (.opsel 0x1 p) = .ok (.enccmd p.address p.payload)) ∧
  ∀ (address : Nat) (payload : Byte) (s : State),
    (address ≤ 3 → ∃ b1 : Byte, b1.toNat = (address <<< 6 ||| 0b1000 <<< 1 ||| 1) ∧
      exec (.enccmd address payload) s =
        .next { s with answer := some (.success (.wire (reverse8 b1) (reverse8 payload))) }) ∧
    (3 < address → exec (.enccmd address payload) s = .next { s with answer := some (.failure .invalidArgument) })

/-- R112: each output byte reversed gives the expression and the payload back, and `w0` alone gives the address. -/
def Obligations.EnccmdOutputReconstructsItsOperands : Prop :=
  ∀ (address : Nat) (payload : Byte) (s : State), address ≤ 3 → ∃ w0 w1 : Byte,
    exec (.enccmd address payload) s = .next { s with answer := some (.success (.wire w0 w1)) } ∧
    (reverse8 w0).toNat = (address <<< 6 ||| 0x11) ∧ reverse8 w1 = payload ∧
    address = 2 * (w0.getLsbD 0).toNat + (w0.getLsbD 1).toNat

/-- R71: the two wire bytes bit by bit, the four first bytes, and the two bytes before reversal. -/
def Obligations.CommandFrameIsLaidOutAsTheTableSays : Prop :=
  ∀ (address : BitVec 2) (payload : Byte) (s : State), ∃ w0 w1 : Byte,
    exec (.enccmd address.toNat payload) s = .next { s with answer := some (.success (.wire w0 w1)) } ∧
    (w0.getLsbD 7 = true ∧ w0.getLsbD 6 = false ∧ w0.getLsbD 5 = false ∧ w0.getLsbD 4 = false ∧
      w0.getLsbD 3 = true ∧ w0.getLsbD 2 = false ∧ w0.getLsbD 1 = address.getLsbD 0 ∧
      w0.getLsbD 0 = address.getLsbD 1) ∧
    (∀ i, i < 8 → w1.getLsbD i = payload.getLsbD (7 - i)) ∧
    w0 = (if address = 0 then 0x88#8 else if address = 1 then 0x8A#8 else if address = 2 then 0x89#8 else 0x8B#8) ∧
    reverse8 w0 = address ++ 0b010001#6 ∧ (reverse8 w0).toNat = (address.toNat <<< 6 ||| 0x11) ∧
    reverse8 w1 = payload

/-- The two rows of the command frame (the model's choice, log 12): each answers the very bytes ENCCMD answers for the
same fields, and writes no state of the block. -/
def Obligations.CommandFrameRowsAnswerWhatEnccmdAnswers : Prop :=
  ∀ (address : BitVec 2) (payload : Byte) (s : State), ∃ t,
    exec (.cmdFrameB1B2 address payload) s = .next t ∧ exec (.cmdFrameW0W1 address payload) s = .next t ∧
    exec (.enccmd address.toNat payload) s = .next t ∧ t = { s with answer := t.answer }

/-! ### LOAD and the stream -/

/-- R120: LOAD, select code 0x2: what it leaves, in full; LEN, TAG and DATA are not written; more than BUF_BYTES bytes
are refused. That no entry at or beyond `m` is readable is the model's choice (log 6): such an entry is no part of the
state, and a model need not hold it (R21), but no rule says that it holds nothing. -/
def Obligations.LoadBuildsAFreshStream : Prop :=
  (∀ p : Ports, p.raw.length = p.m → decode (.opsel 0x2 p) = .ok (.load p.raw)) ∧
  ∀ (raw : List Byte) (s : State),
    (raw.length ≤ s.cfg.bufBytes → ∃ nb,
      (∀ j, Memory.read nb j = (raw[j]?).map reverse8) ∧ Memory.wf nb ∧
      exec (.load raw) s = .next { s with
        nb := nb, blen := raw.length, cur := 0, fsm := .scanning, out := [], answer := some (.success .nothing) }) ∧
    (s.cfg.bufBytes < raw.length → exec (.load raw) s = .refused (.loadTooLong raw.length))

/-- R85 (D14): a buffer above BUF_BYTES cannot be presented and is refused, for LOAD and for the LOAD in DECODE. -/
def Obligations.BufferAboveTheCapacityIsRefused : Prop :=
  ∀ (raw : List Byte) (s : State), s.cfg.bufBytes < raw.length →
    exec (.load raw) s = .refused (.loadTooLong raw.length) ∧ exec (.decode raw) s = .refused (.loadTooLong raw.length)

/-- R52 (the spec's decision D1, log 3): bit `i` of the stream is bit `7 - (i mod 8)` of normalised byte `i div 8`. -/
def Obligations.StreamBitIsMostSignificantFirst : Prop :=
  ∀ (s : State) (i : Nat) (b : Byte), s.cfg.msbFirstOfReversed = true → s.nb.read (i / 8) = some b →
    s.streamBit i = .ok (b.getLsbD (7 - i % 8))

/-- R53, which the spec derives from R51, R52 and R100 (decision D1, log 3): `S[8j+k] = raw[j][k]`. -/
def Obligations.StreamAfterLoadIsTheRawBits : Prop :=
  ∀ (raw : List Byte) (s t : State) (j k : Nat) (b : Byte), s.cfg.msbFirstOfReversed = true →
    exec (.load raw) s = .next t → raw[j]? = some b → k ≤ 7 → t.streamBit (8 * j + k) = .ok (b.getLsbD k)

/-- The other reading of the bit order (U11, log 3; the model's configuration, not the rule's): `S[8j+k] =
raw[j][7-k]`; and under either reading the stream of Safety.lean is the one LOAD leaves. -/
def Obligations.StreamAfterLoadUnderEitherReading : Prop :=
  ∀ (raw : List Byte) (s t : State), exec (.load raw) s = .next t →
    (s.cfg.msbFirstOfReversed = false → ∀ (j k : Nat) (b : Byte), raw[j]? = some b → k ≤ 7 →
      t.streamBit (8 * j + k) = .ok (b.getLsbD (7 - k))) ∧
    t.memRead 0 t.bitLen = .ok (rawStream s.cfg.msbFirstOfReversed raw)

/-! ### The four reads -/

/-- R121: PEEKBIT, select code 0x3. -/
def Obligations.PeekbitAnswersTheBitAtTheCursor : Prop :=
  (∀ p : Ports, decode (.opsel 0x3 p) = .ok .peekbit) ∧
  ∀ s : State, s.Inv →
    (s.cur < s.bitLen → ∃ v, s.streamBit s.cur = .ok v ∧
      exec .peekbit s = .next { s with answer := some (.success (.bit v)) }) ∧
    (s.cur = s.bitLen → exec .peekbit s = .next { s with answer := some (.failure .endOfStream) })

/-- R122: NEXTBIT, select code 0x4. -/
def Obligations.NextbitConsumesTheBitAtTheCursor : Prop :=
  (∀ p : Ports, decode (.opsel 0x4 p) = .ok .nextbit) ∧
  ∀ s : State, s.Inv →
    (s.cur < s.bitLen → ∃ v, s.streamBit s.cur = .ok v ∧
      exec .nextbit s = .next { s with cur := s.cur + 1, answer := some (.success (.bit v)) }) ∧
    (s.cur = s.bitLen → exec .nextbit s = .next { s with answer := some (.failure .endOfStream) })

/-- R123: READRAW, select code 0x5. -/
def Obligations.ReadrawConsumesBitsInStreamOrder : Prop :=
  (∀ p : Ports, decode (.opsel 0x5 p) = .ok (.readraw p.n)) ∧
  ∀ (s : State) (n : BitVec 5), s.Inv →
    (n.toNat ≤ s.bitLen - s.cur → ∃ v, v.length = n.toNat ∧ s.holdsAt s.cur v ∧
      exec (.readraw n) s = .next { s with cur := s.cur + n.toNat, answer := some (.success (.bits v)) }) ∧
    (s.bitLen - s.cur < n.toNat → exec (.readraw n) s = .next { s with answer := some (.failure .endOfStream) })

/-- R124: READREV, select code 0x6; the value is below `2^n` and its bit `i` is the `i`-th bit read. -/
def Obligations.ReadrevConsumesAReversedNumber : Prop :=
  (∀ p : Ports, decode (.opsel 0x6 p) = .ok (.readrev p.n)) ∧
  ∀ (s : State) (n : BitVec 5), s.Inv →
    (n.toNat ≤ s.bitLen - s.cur → ∃ v x, v.length = n.toNat ∧ s.holdsAt s.cur v ∧ x < 2 ^ n.toNat ∧
      (∀ i, i < n.toNat → x.testBit i = v.getD i false) ∧
      exec (.readrev n) s = .next { s with cur := s.cur + n.toNat, answer := some (.success (.number x)) }) ∧
    (s.bitLen - s.cur < n.toNat → exec (.readrev n) s = .next { s with answer := some (.failure .endOfStream) })

/-- R125 (the spec's decision D10, log 10), R171, R172, R176: an operation that answers a failure has changed
nothing but the answer, from any state. -/
def Obligations.FailedOperationsWriteNoState : Prop :=
  ∀ i s t st, exec i s = .next t → t.answer = some (.failure st) → t = { s with answer := some (.failure st) }

/-- R127, which the spec derives from R123 and R124: a read of zero bits succeeds in every state. -/
def Obligations.ReadsOfZeroBitsSucceedEverywhere : Prop :=
  ∀ s : State,
    exec (.readraw 0) s = .next { s with answer := some (.success (.bits [])) } ∧
    exec (.readrev 0) s = .next { s with answer := some (.success (.number 0)) }

/-- R57, the clause the spec derives from R123: two successive READRAWs give the bits of one READRAW of both widths,
from any state. -/
def Obligations.SuccessiveReadsJoin : Prop :=
  ∀ (s t u : State) (a b : BitVec 5) (v w : List Bit), a.toNat + b.toNat ≤ 31 →
    exec (.readraw a) s = .next t → t.answer = some (.success (.bits v)) →
    exec (.readraw b) t = .next u → u.answer = some (.success (.bits w)) →
    exec (.readraw (a + b)) s = .next { u with answer := some (.success (.bits (v ++ w))) }

/-- R124, relation to READRAW: on the same state READREV answers `nat_lsb` of what READRAW answers, which is `nat_msb`
of its reversal, and moves the cursor as READRAW does; they fail together. -/
def Obligations.ReadrevIsNatLsbOfReadraw : Prop :=
  ∀ (s t : State) (n : BitVec 5), exec (.readraw n) s = .next t →
    (∀ v, t.answer = some (.success (.bits v)) →
      exec (.readrev n) s = .next { t with answer := some (.success (.number (natLsb v))) } ∧
      natLsb v = natMsb v.reverse) ∧
    (∀ st, t.answer = some (.failure st) → exec (.readrev n) s = .next t)

/-! ### The frame decoder -/

/-- R142: STEP in Scanning, with padding, with a marker and at the end of the stream. -/
def Obligations.StepInScanningSkipsPaddingAndFindsMarkers : Prop :=
  ∀ s : State, s.Inv → s.fsm = .scanning →
    (s.cur = s.bitLen →
      exec .step s = .next { s with fsm := .halted, answer := some (.success (.stepped .halted none)) }) ∧
    (s.cur < s.bitLen → ∃ v, s.streamBit s.cur = .ok v ∧
      (v = false →
        exec .step s = .next { s with cur := s.cur + 1, answer := some (.success (.stepped .scanning none)) }) ∧
      (v = true → exec .step s = .next { s with
        cur := s.cur + 1, fsm := .readLength, answer := some (.success (.stepped .readLength none)) }))

/-- R143 with R75: STEP in ReadLength. -/
def Obligations.StepInReadLengthReadsTheReversedLength : Prop :=
  ∀ s : State, s.Inv → s.fsm = .readLength →
    (s.bitLen - s.cur < 5 →
      exec .step s = .next { s with fsm := .halted, answer := some (.success (.stepped .halted none)) }) ∧
    (5 ≤ s.bitLen - s.cur → ∃ b0 b1 b2 b3 b4 : Bit, s.holdsAt s.cur [b0, b1, b2, b3, b4] ∧
      exec .step s = .next { s with
        cur := s.cur + 5
        len := BitVec.ofNat 5 (b0.toNat + 2 * b1.toNat + 4 * b2.toNat + 8 * b3.toNat + 16 * b4.toNat)
        fsm := .readTag
        answer := some (.success (.stepped .readTag none)) })

/-- R144 with R76: STEP in ReadTag. -/
def Obligations.StepInReadTagReadsTheTag : Prop :=
  ∀ s : State, s.Inv → s.fsm = .readTag →
    (s.bitLen - s.cur < 2 →
      exec .step s = .next { s with fsm := .halted, answer := some (.success (.stepped .halted none)) }) ∧
    (2 ≤ s.bitLen - s.cur → ∃ u0 u1 : Bit, s.holdsAt s.cur [u0, u1] ∧
      exec .step s = .next { s with
        cur := s.cur + 2
        tag := BitVec.ofNat 2 (2 * u0.toNat + u1.toNat)
        fsm := .readData
        answer := some (.success (.stepped .readData none)) })

/-- R145 with R155: STEP in ReadData, with LEN = 0 among its cases. -/
def Obligations.StepInReadDataReadsLengthBits : Prop :=
  ∀ s : State, s.Inv → s.fsm = .readData →
    (s.bitLen - s.cur < s.len.toNat →
      exec .step s = .next { s with fsm := .halted, answer := some (.success (.stepped .halted none)) }) ∧
    (s.len.toNat ≤ s.bitLen - s.cur → ∃ v, v.length = s.len.toNat ∧ s.holdsAt s.cur v ∧
      exec .step s = .next { s with
        cur := s.cur + s.len.toNat
        data := v
        fsm := .emit
        answer := some (.success (.stepped .emit none)) })

/-- R146: STEP in Emit appends the message and returns it, in every state. -/
def Obligations.StepInEmitAppendsTheMessage : Prop :=
  ∀ s : State, s.fsm = .emit →
    exec .step s = .next { s with
      out := s.out ++ [{ tag := s.tag, length := s.len, data := s.data }]
      fsm := .scanning
      answer := some (.success (.stepped .scanning (some { tag := s.tag, length := s.len, data := s.data }))) }

/-- R147, R148 (D22): in Halted, STEP and RUN change nothing but the answer, in every state. -/
def Obligations.StepAndRunInHaltedChangeNothing : Prop :=
  ∀ s : State, s.fsm = .halted →
    exec .step s = .next { s with answer := some (.success (.stepped .halted none)) } ∧
    exec .run s = .next { s with answer := some (.success (.messages s.out)) }

/-- R148, R151: RUN is STEP repeated until Halted, at most `5 * L + 5` times, and then answers OUT. -/
def Obligations.RunIsRepeatedStepWithinTheBound : Prop :=
  ∀ s : State, s.Inv → ∃ k u, k ≤ 5 * s.bitLen + 5 ∧ stepTimes k s = .next u ∧ u.fsm = .halted ∧
    exec .run s = .next { u with answer := some (.success (.messages u.out)) }

/-- R151, which the spec derives: every STEP that does not halt lowers the measure, from any state; so RUN never
runs out of fuel (log 14). -/
def Obligations.EveryStepLowersTheMeasure : Prop :=
  (∀ s t : State, exec .step s = .next t → t.fsm ≠ .halted → t.mu < s.mu) ∧
  (∀ s : State, s.mu ≤ 5 * s.bitLen + 4) ∧
  ∀ s : State, exec .run s ≠ .fault .runOutOfFuel

/-- R149, R87: the requests LOAD and RUN, one after the other, do what DECODE does. -/
def Obligations.DecodeIsLoadThenRun : Prop :=
  ∀ (s : State) (raw : List Byte) (q : List Request), raw.length ≤ s.cfg.bufBytes →
    s.pending = encode (.load raw) :: encode .run :: q →
    ∃ u t, step s = .next u ∧ step u = .next t ∧ exec (.decode raw) { s with pending := q } = .next t

/-- R150, which the spec derives from R142 to R148: DECODE is the function `dec`, for any fuel above the number of
stream bits. -/
def Obligations.DecodeIsTheRecursiveFunction : Prop :=
  ∀ (s : State) (raw : List Byte) (fuel : Nat), raw.length ≤ s.cfg.bufBytes → 8 * raw.length < fuel →
    ∃ t, exec (.decode raw) s = .next t ∧ t.fsm = .halted ∧
      t.out = dec (rawStream s.cfg.msbFirstOfReversed raw) fuel 0 [] ∧
      t.answer = some (.success (.messages t.out))

/-- R149, R152: what DECODE leaves and answers depends on the buffer alone and on no earlier state (LEN, TAG and DATA,
which it may leave stale, apart). -/
def Obligations.DecodeDependsOnTheBufferAlone : Prop :=
  ∀ (s s' : State) (raw : List Byte), s.cfg = s'.cfg → raw.length ≤ s.cfg.bufBytes →
    ∃ t t', exec (.decode raw) s = .next t ∧ exec (.decode raw) s' = .next t' ∧
      t.answer = t'.answer ∧ t.out = t'.out ∧ t.nb = t'.nb ∧ t.blen = t'.blen ∧ t.cur = t'.cur ∧ t.fsm = t'.fsm

/-- R74 to R77, R79, R154, R155, R157, R159: frames laid in the stream after any amounts of padding, none included,
decode to exactly their messages, in stream order. -/
def Obligations.FramesDecodeToTheirMessagesInOrder : Prop :=
  ∀ (s : State) (raw : List Byte) (items : List (Nat × Message)) (trailing : Nat),
    raw.length ≤ s.cfg.bufBytes → (∀ x ∈ items, x.2.wf) →
    rawStream s.cfg.msbFirstOfReversed raw = layout items ++ List.replicate trailing false →
    ∃ t, exec (.decode raw) s = .next t ∧ t.out = items.map (·.2) ∧
      t.answer = some (.success (.messages (items.map (·.2)))) ∧ t.fsm = .halted ∧ t.cur = 8 * raw.length

/-- R153, R174: a frame cut by the end of the buffer is dropped, the pass ends with status OK, and the messages before
it stay. -/
def Obligations.TruncatedFrameIsDroppedSilently : Prop :=
  ∀ (s : State) (raw : List Byte) (items : List (Nat × Message)) (p : Nat) (m : Message) (cut rest : List Bit),
    raw.length ≤ s.cfg.bufBytes → (∀ x ∈ items, x.2.wf) → m.wf →
    m.bits = cut ++ rest → cut ≠ [] → rest ≠ [] →
    rawStream s.cfg.msbFirstOfReversed raw = layout items ++ (List.replicate p false ++ cut) →
    ∃ t, exec (.decode raw) s = .next t ∧ t.out = items.map (·.2) ∧
      t.answer = some (.success (.messages (items.map (·.2)))) ∧ t.fsm = .halted

/-- R156, which the spec derives: at most one message per byte; raw bytes 0x01 reach the bound (under the bit order
of R52). -/
def Obligations.MessagesAreBoundedByBytes : Prop :=
  (∀ (s t : State) (raw : List Byte), exec (.decode raw) s = .next t → t.out.length ≤ raw.length) ∧
  ∀ (s : State) (n : Nat), n ≤ s.cfg.bufBytes → s.cfg.msbFirstOfReversed = true →
    ∃ t, exec (.decode (List.replicate n 0x01)) s = .next t ∧
      t.out = List.replicate n { tag := 0, length := 0, data := [] }

/-- R25 to R27, R36: no operation reads LEN, TAG or DATA where it is stale, and none makes a stale value meaningful
without writing it first. LEN is stale outside ReadTag, ReadData and Emit, TAG outside ReadData and Emit, DATA outside
Emit. Of two states that differ only in stale registers (and in the last answer), what the one answers the other
answers, and the states after it again differ only in stale registers. -/
def Obligations.StaleFieldsAreNeverRead : Prop :=
  ∀ (i : Instr) (s s' t : State), s.SameMeaning s' → exec i s = .next t →
    ∃ t', exec i s' = .next t' ∧ t.SameMeaning t' ∧ t'.answer = t.answer

/-- FRAME, the row of R74 (the model's choice of when it runs, log 13): where the frame stands at the cursor of a
scanning decoder it is consumed and its message emitted; anywhere else it is refused. -/
def Obligations.FrameRowConsumesAWholeFrame : Prop :=
  ∀ (s : State) (length : BitVec 5) (tag : BitVec 2) (data : List Bit), data.length = length.toNat →
    (s.fsm = .scanning → s.fetchBits (8 + data.length) = .bits (frameBits length tag data) →
      exec (.frame length tag data) s = .next { s with
        cur := s.cur + (8 + data.length)
        len := length
        tag := tag
        data := data
        out := s.out ++ [{ tag := tag, length := length, data := data }]
        answer := some (.success (.stepped .scanning (some { tag := tag, length := length, data := data }))) }) ∧
    (s.fsm ≠ .scanning ∨ s.fetchBits (8 + data.length) ≠ .bits (frameBits length tag data) →
      exec (.frame length tag data) s = .refused .itemNotAtCursor)

/-- PADDING, the row of R79 (the model's choice of when it runs, log 13): where a `0` bit stands at the cursor of a
scanning decoder it is consumed; anywhere else it is refused. -/
def Obligations.PaddingRowConsumesOneZeroBit : Prop :=
  ∀ s : State,
    (s.fsm = .scanning → s.cur < s.bitLen → s.streamBit s.cur = .ok false →
      exec .padding s = .next { s with cur := s.cur + 1, answer := some (.success (.stepped .scanning none)) }) ∧
    (s.fsm ≠ .scanning ∨ s.bitLen ≤ s.cur ∨ s.streamBit s.cur ≠ .ok false →
      exec .padding s = .refused .itemNotAtCursor)

/-! ### Frames -/

/-- R100, R110, R113 (log 12 for the two rows of the command frame): REV8, ENCCMD and the command frame leave every
item of the state, and every byte of the buffer reads as before. -/
def Obligations.FrameOfTheStatelessOperations : Prop :=
  ∀ (i : Instr) (s t : State), (∃ b, i = .rev8 b) ∨ (∃ a p, i = .enccmd a p) ∨ (∃ a p, i = .cmdFrameB1B2 a p) ∨
      (∃ a p, i = .cmdFrameW0W1 a p) → exec i s = .next t →
    (∀ j, t.nb.read j = s.nb.read j) ∧ t.blen = s.blen ∧ t.cur = s.cur ∧ t.fsm = s.fsm ∧ t.len = s.len ∧
    t.tag = s.tag ∧ t.data = s.data ∧ t.out = s.out ∧ t.cfg = s.cfg ∧ t.pending = s.pending

/-- R121 to R124, R126, R128: the four reads leave everything but CUR and the answer, PEEKBIT leaves CUR too, and CUR
moves by the number of bits returned or not at all. -/
def Obligations.FrameOfTheReads : Prop :=
  ∀ (i : Instr) (s t : State), readsStream i → exec i s = .next t →
    (∀ j, t.nb.read j = s.nb.read j) ∧ t.blen = s.blen ∧ t.fsm = s.fsm ∧ t.len = s.len ∧ t.tag = s.tag ∧
    t.data = s.data ∧ t.out = s.out ∧ t.cfg = s.cfg ∧ t.pending = s.pending ∧
    (i = .peekbit → t.cur = s.cur) ∧ (i = .nextbit → t.cur = s.cur ∨ t.cur = s.cur + 1) ∧
    ∀ n, i = .readraw n ∨ i = .readrev n → t.cur = s.cur ∨ t.cur = s.cur + n.toNat

/-- R141 to R148 (log 13 for FRAME and PADDING): the decoder's operations leave the buffer and its length. -/
def Obligations.FrameOfTheDecoderOperations : Prop :=
  ∀ (i : Instr) (s t : State), i = .step ∨ i = .run ∨ (∃ l g d, i = .frame l g d) ∨ i = .padding →
    exec i s = .next t →
    (∀ j, t.nb.read j = s.nb.read j) ∧ t.blen = s.blen ∧ t.cfg = s.cfg ∧ t.pending = s.pending ∧
    (s.fsm = .halted → t.cur = s.cur ∧ t.len = s.len ∧ t.tag = s.tag ∧ t.data = s.data ∧ t.out = s.out)

/-- R120, R149: LOAD and DECODE write the bytes `0 .. m-1` of the buffer and no other; LOAD leaves LEN, TAG and DATA.
That an entry beyond BLEN reads as nothing is the model's choice (log 6; such an entry is no part of the state, R21). -/
def Obligations.FrameOfTheLoadingOperations : Prop :=
  ∀ (raw : List Byte) (i : Instr) (s t : State), i = .load raw ∨ i = .decode raw → exec i s = .next t →
    (∀ j, t.nb.read j = (raw[j]?).map reverse8) ∧ t.blen = raw.length ∧ t.cfg = s.cfg ∧ t.pending = s.pending ∧
    (i = .load raw → t.len = s.len ∧ t.tag = s.tag ∧ t.data = s.data)

/-- R9, R133: the cursor fits its register: `CW` is the least width for `8 * BUF_BYTES`, 10 bits at the default. -/
def Obligations.CursorFitsItsRegister : Prop :=
  (∀ s : State, s.Inv → s.cur < 2 ^ s.cfg.cursorWidth) ∧
  (∀ (c : Config) (w : Nat), 8 * c.bufBytes < 2 ^ w ↔ c.cursorWidth ≤ w) ∧ Config.cursorWidth {} = 10
end

