-- ==== Sys2Proof/Laws/Operands.lean ====
section
/-! SUPPORT. Small facts about bit sequences and bit reversal. -/

namespace Sys2Proof.Machine

@[simp] theorem length_bitsLsb (n v : Nat) : (bitsLsb n v).length = n := by
  induction n generalizing v with
  | zero => rfl
  | succ n ih => simp [bitsLsb, ih]

@[simp] theorem length_bitsMsb (n v : Nat) : (bitsMsb n v).length = n := by
  simp [bitsMsb]

theorem natLsb_bitsLsb (n v : Nat) : natLsb (bitsLsb n v) = v % 2 ^ n := by
  induction n generalizing v with
  | zero => simp [bitsLsb, natLsb, Nat.mod_one]
  | succ n ih =>
    rw [bitsLsb, natLsb, ih, Nat.pow_succ, Nat.mul_comm (2 ^ n) 2, Nat.mod_mul]
    rcases Nat.mod_two_eq_zero_or_one v with h | h <;> simp [h]

theorem natLsb_append (s t : List Bit) : natLsb (s ++ t) = natLsb s + 2 ^ s.length * natLsb t := by
  induction s with
  | nil => simp [natLsb]
  | cons b r ih => simp only [List.cons_append, natLsb, ih, List.length_cons, Nat.pow_succ]; ring

theorem natMsb_eq_natLsb_reverse (s : List Bit) : natMsb s = natLsb s.reverse := by
  induction s with
  | nil => rfl
  | cons b r ih => simp [natMsb, natLsb_append, natLsb, ih]; ring

theorem natMsb_bitsMsb (n v : Nat) : natMsb (bitsMsb n v) = v % 2 ^ n := by
  rw [natMsb_eq_natLsb_reverse, bitsMsb, List.reverse_reverse, natLsb_bitsLsb]

theorem natLsb_lt (s : List Bit) : natLsb s < 2 ^ s.length := by
  induction s with
  | nil => simp [natLsb]
  | cons b r ih =>
    have hb : b.toNat ≤ 1 := Bool.toNat_le b
    simp only [natLsb, List.length_cons, Nat.pow_succ]; omega

theorem natMsb_lt (s : List Bit) : natMsb s < 2 ^ s.length := by
  rw [natMsb_eq_natLsb_reverse]; simpa using natLsb_lt s.reverse

theorem bitsLsb_natLsb (s : List Bit) : bitsLsb s.length (natLsb s) = s := by
  induction s with
  | nil => rfl
  | cons b r ih =>
    have h1 : (b.toNat + 2 * natLsb r) % 2 = b.toNat := by
      have hb : b.toNat ≤ 1 := Bool.toNat_le b
      omega
    have h2 : (b.toNat + 2 * natLsb r) / 2 = natLsb r := by
      have hb : b.toNat ≤ 1 := Bool.toNat_le b
      omega
    simp only [List.length_cons, natLsb, bitsLsb, h1, h2, ih]
    cases b <;> simp

theorem bitsMsb_natMsb (s : List Bit) : bitsMsb s.length (natMsb s) = s := by
  have h := bitsLsb_natLsb s.reverse
  rw [List.length_reverse] at h
  rw [bitsMsb, natMsb_eq_natLsb_reverse, h, List.reverse_reverse]

@[simp] theorem length_frameBits (length : BitVec 5) (tag : BitVec 2) (data : List Bit) :
    (frameBits length tag data).length = 8 + data.length := by
  simp [frameBits]; omega

/-- The wiring, bit by bit. -/
theorem getLsbD_reverse8 (b : Byte) (i : Nat) (h : i < 8) : (reverse8 b).getLsbD i = b.getLsbD (7 - i) := by
  revert b
  interval_cases i <;> decide

end Sys2Proof.Machine
end

