-- ==== Sys2Proof/Laws/State.lean ====
section
/-! SUPPORT. What each update of State leaves of each field. -/

namespace Sys2Proof.Machine

section
variable (s : State) (n : Nat)
@[simp] theorem State.advance_cfg : (s.advance n).cfg = s.cfg := rfl
@[simp] theorem State.advance_nb : (s.advance n).nb = s.nb := rfl
@[simp] theorem State.advance_blen : (s.advance n).blen = s.blen := rfl
@[simp] theorem State.advance_cur : (s.advance n).cur = s.cur + n := rfl
@[simp] theorem State.advance_fsm : (s.advance n).fsm = s.fsm := rfl
@[simp] theorem State.advance_len : (s.advance n).len = s.len := rfl
@[simp] theorem State.advance_tag : (s.advance n).tag = s.tag := rfl
@[simp] theorem State.advance_data : (s.advance n).data = s.data := rfl
@[simp] theorem State.advance_out : (s.advance n).out = s.out := rfl
@[simp] theorem State.advance_pending : (s.advance n).pending = s.pending := rfl
@[simp] theorem State.advance_answer : (s.advance n).answer = s.answer := rfl
end

section
variable (s : State) (r : Result)
@[simp] theorem State.succeed_cfg : (s.succeed r).cfg = s.cfg := rfl
@[simp] theorem State.succeed_nb : (s.succeed r).nb = s.nb := rfl
@[simp] theorem State.succeed_blen : (s.succeed r).blen = s.blen := rfl
@[simp] theorem State.succeed_cur : (s.succeed r).cur = s.cur := rfl
@[simp] theorem State.succeed_fsm : (s.succeed r).fsm = s.fsm := rfl
@[simp] theorem State.succeed_len : (s.succeed r).len = s.len := rfl
@[simp] theorem State.succeed_tag : (s.succeed r).tag = s.tag := rfl
@[simp] theorem State.succeed_data : (s.succeed r).data = s.data := rfl
@[simp] theorem State.succeed_out : (s.succeed r).out = s.out := rfl
@[simp] theorem State.succeed_pending : (s.succeed r).pending = s.pending := rfl
@[simp] theorem State.succeed_answer : (s.succeed r).answer = some (.success r) := rfl
end

section
variable (s : State) (st : Status)
@[simp] theorem State.raise_cfg : (s.raise st).cfg = s.cfg := rfl
@[simp] theorem State.raise_nb : (s.raise st).nb = s.nb := rfl
@[simp] theorem State.raise_blen : (s.raise st).blen = s.blen := rfl
@[simp] theorem State.raise_cur : (s.raise st).cur = s.cur := rfl
@[simp] theorem State.raise_fsm : (s.raise st).fsm = s.fsm := rfl
@[simp] theorem State.raise_len : (s.raise st).len = s.len := rfl
@[simp] theorem State.raise_tag : (s.raise st).tag = s.tag := rfl
@[simp] theorem State.raise_data : (s.raise st).data = s.data := rfl
@[simp] theorem State.raise_out : (s.raise st).out = s.out := rfl
@[simp] theorem State.raise_pending : (s.raise st).pending = s.pending := rfl
@[simp] theorem State.raise_answer : (s.raise st).answer = some (.failure st) := rfl
end

section
variable (s : State)
@[simp] theorem State.haltPass_cfg : (s.haltPass).cfg = s.cfg := rfl
@[simp] theorem State.haltPass_nb : (s.haltPass).nb = s.nb := rfl
@[simp] theorem State.haltPass_blen : (s.haltPass).blen = s.blen := rfl
@[simp] theorem State.haltPass_cur : (s.haltPass).cur = s.cur := rfl
@[simp] theorem State.haltPass_fsm : (s.haltPass).fsm = .halted := rfl
@[simp] theorem State.haltPass_len : (s.haltPass).len = s.len := rfl
@[simp] theorem State.haltPass_tag : (s.haltPass).tag = s.tag := rfl
@[simp] theorem State.haltPass_data : (s.haltPass).data = s.data := rfl
@[simp] theorem State.haltPass_out : (s.haltPass).out = s.out := rfl
@[simp] theorem State.haltPass_pending : (s.haltPass).pending = s.pending := rfl
@[simp] theorem State.haltPass_answer : (s.haltPass).answer = s.answer := rfl
end

/-- Two states with the same fields are the same state. -/
theorem State.ext_fields {s t : State} (h1 : s.cfg = t.cfg) (h2 : s.nb = t.nb) (h3 : s.blen = t.blen)
    (h4 : s.cur = t.cur) (h5 : s.fsm = t.fsm) (h6 : s.len = t.len) (h7 : s.tag = t.tag) (h8 : s.data = t.data)
    (h9 : s.out = t.out) (h10 : s.pending = t.pending) (h11 : s.answer = t.answer) : s = t := by
  cases s; cases t; simp_all

/-- The stream length does not depend on the cursor, the decoder's registers or the answer. -/
@[simp] theorem State.bitLen_succeed (s : State) (r : Result) : (s.succeed r).bitLen = s.bitLen := rfl
@[simp] theorem State.bitLen_advance (s : State) (n : Nat) : (s.advance n).bitLen = s.bitLen := rfl
@[simp] theorem State.bitLen_haltPass (s : State) : s.haltPass.bitLen = s.bitLen := rfl

end Sys2Proof.Machine
end

