-- ==== Sys2Proof/Laws/Ops.lean ====
section
/-! SUPPORT. What each shared operation can do, once. -/

namespace Sys2Proof.Machine

/-! ### The byte memory -/

@[simp] theorem Memory.read_nil (a : Nat) : Memory.read [] a = none := rfl

theorem Memory.read_write (m : Memory) (a : Nat) (v : Byte) (b : Nat) (h : m.wf) :
    (m.write a v).read b = if a = b then some v else m.read b := by
  induction m with
  | nil => simp [Memory.write, Memory.read]
  | cons c r ih =>
    obtain ⟨k, u⟩ := c
    have hr : Memory.wf r := (List.pairwise_cons.mp h).2
    simp only [Memory.write]
    split
    · simp [Memory.read]
    · split
      · subst a; simp only [Memory.read]; split <;> simp_all
      · simp only [Memory.read, ih hr]
        split <;> split <;> simp_all

theorem Memory.mem_write (m : Memory) (a : Nat) (v : Byte) :
    ∀ x ∈ m.write a v, x.1 = a ∨ x ∈ m := by
  induction m with
  | nil => simp [Memory.write]
  | cons c r ih =>
    intro x hx
    simp only [Memory.write] at hx
    split at hx
    · rcases List.mem_cons.mp hx with rfl | hx <;> simp_all
    · split at hx
      · rcases List.mem_cons.mp hx with rfl | hx <;> simp_all
      · rcases List.mem_cons.mp hx with rfl | hx
        · simp
        · rcases ih x hx with h | h <;> simp_all

/-- A write keeps the canonical form. -/
theorem Memory.wf_write (m : Memory) (a : Nat) (v : Byte) (h : m.wf) : (m.write a v).wf := by
  induction m with
  | nil => simp [Memory.write, Memory.wf]
  | cons c r ih =>
    obtain ⟨hc, hr⟩ := List.pairwise_cons.mp h
    simp only [Memory.write]
    split
    · rename_i hlt
      refine List.pairwise_cons.mpr ⟨fun x hx => ?_, h⟩
      rcases List.mem_cons.mp hx with rfl | hx
      · exact hlt
      · exact Nat.lt_trans hlt (hc x hx)
    · split
      · subst a; exact List.pairwise_cons.mpr ⟨hc, hr⟩
      · refine List.pairwise_cons.mpr ⟨fun x hx => ?_, ih hr⟩
        rcases Memory.mem_write r a v x hx with h | h
        · rw [h]; omega
        · exact hc x h

theorem Memory.wf_writeAll (m : Memory) (a : Nat) (vs : List Byte) (h : m.wf) : (m.writeAll a vs).wf := by
  induction vs generalizing m a with
  | nil => exact h
  | cons v r ih => exact ih _ _ (Memory.wf_write m a v h)

theorem Memory.read_writeAll (m : Memory) (a : Nat) (vs : List Byte) (b : Nat) (h : m.wf) :
    (m.writeAll a vs).read b =
      if a ≤ b ∧ b < a + vs.length then vs[b - a]? else m.read b := by
  induction vs generalizing m a with
  | nil => simp only [Memory.writeAll, List.length_nil]; split <;> [omega; rfl]
  | cons v r ih =>
    rw [Memory.writeAll, ih _ _ (Memory.wf_write m a v h), Memory.read_write m a v b h]
    simp only [List.length_cons]
    split
    · rename_i h1
      rw [if_pos (by omega)]
      obtain ⟨k, hk⟩ : ∃ k, b - a = k + 1 := ⟨b - a - 1, by omega⟩
      rw [hk, show b - (a + 1) = k by omega]; rfl
    · split
      · subst a; rw [if_pos (by omega)]; simp
      · rw [if_neg (by omega)]

/-- The memory of the reset state is in canonical form. -/
theorem Memory.wf_reset (c : Config) : Memory.wf (State.resetWith c).nb := List.Pairwise.nil

/-- What LOAD's writes leave at each address. -/
theorem Memory.read_loaded (vs : List Byte) (b : Nat) : (Memory.writeAll [] 0 vs).read b = vs[b]? := by
  rw [Memory.read_writeAll [] 0 vs b List.Pairwise.nil]
  split
  · simp
  · rename_i h; rw [List.getElem?_eq_none (by omega)]; rfl

/-! ### Reading bits -/

/-- The bits read depend on the configuration and the buffer only. -/
theorem State.memRead_congr {s t : State} (h1 : s.cfg = t.cfg) (h2 : s.nb = t.nb) (a n : Nat) :
    s.memRead a n = t.memRead a n := by
  induction n generalizing a with
  | zero => rfl
  | succ n ih => simp only [State.memRead, State.streamBit, h1, h2, ih]

theorem State.memRead_length {s : State} {a n : Nat} {v : List Bit} (h : s.memRead a n = .ok v) :
    v.length = n := by
  induction n generalizing a v with
  | zero => simp [State.memRead] at h; simp [← h]
  | succ n ih =>
    simp only [State.memRead] at h
    split at h
    · rename_i b r hb hr
      simp only [Except.ok.injEq] at h
      subst h; simp [ih hr]
    · simp at h
    · simp at h

/-- Each bit of a read is the stream bit at its address. -/
theorem State.memRead_get {s : State} {a n : Nat} {v : List Bit} (h : s.memRead a n = .ok v)
    {i : Nat} {b : Bit} (hi : v[i]? = some b) : s.streamBit (a + i) = .ok b := by
  induction n generalizing a v i with
  | zero => simp only [State.memRead, Except.ok.injEq] at h; simp [← h] at hi
  | succ n ih =>
    simp only [State.memRead] at h
    split at h
    · rename_i b' r h1 h2
      simp only [Except.ok.injEq] at h
      subst h
      cases i with
      | zero => simp only [List.getElem?_cons_zero, Option.some.injEq] at hi; simp [← hi, h1]
      | succ i =>
        have := ih h2 (i := i) (by simpa using hi)
        rw [← this]; congr 1; omega
    · simp at h
    · simp at h

theorem State.memRead_append {s : State} {a n k : Nat} {v w : List Bit} (h1 : s.memRead a n = .ok v)
    (h2 : s.memRead (a + n) k = .ok w) : s.memRead a (n + k) = .ok (v ++ w) := by
  induction n generalizing a v with
  | zero => simp [State.memRead] at h1; simp_all
  | succ n ih =>
    simp only [State.memRead] at h1
    split at h1 <;> simp_all
    rename_i b r hb hr
    subst h1
    have := ih hr (by rw [← h2]; congr 1; omega)
    rw [show n + 1 + k = (n + k) + 1 by omega, State.memRead, hb, this]; rfl

theorem State.memRead_split {s : State} {a n k : Nat} {v : List Bit} (h : s.memRead a (n + k) = .ok v) :
    s.memRead a n = .ok (v.take n) ∧ s.memRead (a + n) k = .ok (v.drop n) := by
  induction n generalizing a v with
  | zero => simp only [Nat.zero_add] at h; simp [State.memRead, h]
  | succ n ih =>
    rw [show n + 1 + k = (n + k) + 1 by omega, State.memRead] at h
    split at h
    · rename_i b r hb hr
      simp only [Except.ok.injEq] at h
      subst h
      obtain ⟨h1, h2⟩ := ih hr
      refine ⟨by simp [State.memRead, hb, h1], ?_⟩
      rw [show a + (n + 1) = a + 1 + n by omega, List.drop_succ_cons]; exact h2
    · simp at h
    · simp at h

/-- In a state that meets the invariant every bit of the stream can be read. -/
theorem State.Inv.streamBit_ok {s : State} (h : s.Inv) {i : Nat} (hi : i < s.bitLen) :
    ∃ b, s.streamBit i = .ok b := by
  have : (s.nb.read (i / 8)).isSome = true := (h.validEntries _).mpr (by unfold State.bitLen at hi; omega)
  obtain ⟨v, hv⟩ := Option.isSome_iff_exists.mp this
  exact ⟨byteBit s.cfg.msbFirstOfReversed v (i % 8), by simp [State.streamBit, hv]⟩

theorem State.Inv.memRead_ok {s : State} (h : s.Inv) {a n : Nat} (hn : a + n ≤ s.bitLen) :
    ∃ v, s.memRead a n = .ok v ∧ v.length = n := by
  induction n generalizing a with
  | zero => exact ⟨[], rfl, rfl⟩
  | succ n ih =>
    obtain ⟨b, hb⟩ := h.streamBit_ok (i := a) (by omega)
    obtain ⟨r, hr, hl⟩ := ih (a := a + 1) (by omega)
    exact ⟨b :: r, by simp [State.memRead, hb, hr], by simp [hl]⟩

/-- What a fetch of bits can find, with the facts each case carries. -/
theorem State.fetchBits_cases (s : State) (n : Nat) :
    (∃ v, s.fetchBits n = .bits v ∧ n ≤ s.bitsLeft ∧ s.memRead s.cur n = .ok v ∧ v.length = n) ∨
    (s.fetchBits n = .endOfStream ∧ s.bitsLeft < n) ∨
    (∃ f, s.fetchBits n = .fault f ∧ n ≤ s.bitsLeft ∧ s.memRead s.cur n = .error f) := by
  unfold State.fetchBits
  split
  · exact .inr (.inl ⟨rfl, by assumption⟩)
  · cases hm : s.memRead s.cur n with
    | ok v => exact .inl ⟨v, rfl, by omega, rfl, State.memRead_length hm⟩
    | error f => exact .inr (.inr ⟨f, rfl, by omega, rfl⟩)

theorem State.Inv.fetchBits_bits {s : State} (h : s.Inv) {n : Nat} (hn : n ≤ s.bitsLeft) :
    ∃ v, s.fetchBits n = .bits v ∧ v.length = n ∧ s.memRead s.cur n = .ok v := by
  have hc := h.cursorInStream
  have hb : s.cur + n ≤ s.bitLen := by unfold State.bitsLeft at hn; omega
  obtain ⟨v, hv, hl⟩ := h.memRead_ok hb
  exact ⟨v, by simp [State.fetchBits, Nat.not_lt.mpr hn, hv], hl, hv⟩

/-- Everything a reading operation can do when it answers a next state. -/
theorem reading_next {s t : State} {n : Nat} {found : List Bit → State} {ended : State}
    (h : reading s n found ended = .next t) :
    (∃ v, s.fetchBits n = .bits v ∧ n ≤ s.bitsLeft ∧ v.length = n ∧ s.memRead s.cur n = .ok v ∧ t = found v) ∨
    (s.bitsLeft < n ∧ t = ended) := by
  unfold reading at h
  rcases s.fetchBits_cases n with ⟨v, hf, hn, hm, hl⟩ | ⟨hf, hn⟩ | ⟨f, hf, hn, hm⟩ <;> rw [hf] at h
  · exact .inl ⟨v, hf, hn, hl, hm, by simpa using h.symm⟩
  · exact .inr ⟨hn, by simpa using h.symm⟩
  · simp at h

/-- A reading operation never refuses. -/
theorem reading_not_refused {s : State} {n : Nat} {found : List Bit → State} {ended : State} {r : Refusal} :
    reading s n found ended ≠ .refused r := by
  unfold reading; split <;> simp

/-- With too few bits left a reading operation ends. -/
theorem reading_ended {s : State} {n : Nat} {found : List Bit → State} {ended : State} (h : s.bitsLeft < n) :
    reading s n found ended = .next ended := by
  simp [reading, State.fetchBits, h]

/-- With enough bits left, in a state that meets the invariant, a reading operation finds them. -/
theorem State.Inv.reading_found {s : State} (h : s.Inv) {n : Nat} {found : List Bit → State} {ended : State}
    (hn : n ≤ s.bitsLeft) :
    ∃ v, v.length = n ∧ s.memRead s.cur n = .ok v ∧ reading s n found ended = .next (found v) := by
  obtain ⟨v, hf, hl, hm⟩ := h.fetchBits_bits hn
  exact ⟨v, hl, hm, by simp [reading, hf]⟩

/-- In a state that meets the invariant a reading operation answers a next state. -/
theorem State.Inv.reading_completes {s : State} (h : s.Inv) (n : Nat) (found : List Bit → State) (ended : State) :
    ∃ t, reading s n found ended = .next t := by
  by_cases hn : s.bitsLeft < n
  · exact ⟨_, reading_ended hn⟩
  · obtain ⟨v, -, -, hr⟩ := h.reading_found (found := found) (ended := ended) (Nat.not_lt.mp hn)
    exact ⟨_, hr⟩

theorem andThen_next {o : Host.Outcome State Fault Refusal} {k : State → Host.Outcome State Fault Refusal} {t : State}
    (h : andThen o k = .next t) : ∃ u, o = .next u ∧ k u = .next t := by
  cases o <;> simp_all [andThen]

@[simp] theorem andThen_of_next (s : State) (k : State → Host.Outcome State Fault Refusal) :
    andThen (.next s) k = k s := rfl

/-! ### LOAD -/

/-- Everything LOAD's shared operation can do. -/
theorem loadBuffer_next {raw : List Byte} {s t : State} (h : loadBuffer raw s = .next t) :
    raw.length ≤ s.cfg.bufBytes ∧
    t = ({ s with nb := Memory.writeAll [] 0 (raw.map reverse8), blen := raw.length, cur := 0, fsm := .scanning,
                  out := [] }.succeed .nothing) := by
  unfold loadBuffer at h
  split at h
  · simp at h
  · exact ⟨by omega, by simpa using h.symm⟩

/-- LOAD establishes the invariant, whatever the state before it. -/
theorem loadBuffer_inv {raw : List Byte} {s t : State} (h : loadBuffer raw s = .next t) : t.Inv := by
  obtain ⟨hl, rfl⟩ := loadBuffer_next h
  exact {
    bufferFits := hl
    memoryWf := Memory.wf_writeAll _ _ _ List.Pairwise.nil
    validEntries := fun j => by
      change ((Memory.writeAll [] 0 (raw.map reverse8)).read j).isSome = true ↔ j < raw.length
      rw [Memory.read_loaded]
      by_cases hj : j < raw.length <;> simp [hj]
    cursorInStream := Nat.zero_le _
    messagesPaidFor := by simp [Fsm.headerBitsRead]
    messagesWf := by simp
    emitWf := by simp }

/-! ### The frame decoder -/

/-- Everything one transition can do: the six rules R142 to R147. -/
theorem transition_next {s t : State} (h : transition s = .next t) :
    (s.fsm = .scanning ∧ s.bitsLeft < 1 ∧ t = s.haltPass) ∨
    (∃ v, s.fsm = .scanning ∧ 1 ≤ s.bitsLeft ∧ s.memRead s.cur 1 = .ok [v] ∧
      t = if v then { s.advance 1 with fsm := .readLength } else s.advance 1) ∨
    (s.fsm = .readLength ∧ s.bitsLeft < 5 ∧ t = s.haltPass) ∨
    (∃ v, s.fsm = .readLength ∧ 5 ≤ s.bitsLeft ∧ s.memRead s.cur 5 = .ok v ∧
      t = { s.advance 5 with len := BitVec.ofNat 5 (natLsb v), fsm := .readTag }) ∨
    (s.fsm = .readTag ∧ s.bitsLeft < 2 ∧ t = s.haltPass) ∨
    (∃ v, s.fsm = .readTag ∧ 2 ≤ s.bitsLeft ∧ s.memRead s.cur 2 = .ok v ∧
      t = { s.advance 2 with tag := BitVec.ofNat 2 (natMsb v), fsm := .readData }) ∨
    (s.fsm = .readData ∧ s.bitsLeft < s.len.toNat ∧ t = s.haltPass) ∨
    (∃ v, s.fsm = .readData ∧ s.len.toNat ≤ s.bitsLeft ∧ s.memRead s.cur s.len.toNat = .ok v ∧
      v.length = s.len.toNat ∧ t = { s.advance s.len.toNat with data := v, fsm := .emit }) ∨
    (s.fsm = .emit ∧ t = { s with out := s.out ++ [s.message], fsm := .scanning }) ∨
    (s.fsm = .halted ∧ t = s) := by
  unfold transition at h
  split at h <;> rename_i hf
  · rcases reading_next h with ⟨v, -, hn, hl, hm, rfl⟩ | ⟨hn, rfl⟩
    · obtain ⟨b, rfl⟩ := List.length_eq_one_iff.mp hl
      exact .inr (.inl ⟨b, hf, hn, hm, by simp [firstBit]⟩)
    · exact .inl ⟨hf, hn, rfl⟩
  · rcases reading_next h with ⟨v, -, hn, hl, hm, rfl⟩ | ⟨hn, rfl⟩
    · exact .inr (.inr (.inr (.inl ⟨v, hf, hn, hm, rfl⟩)))
    · exact .inr (.inr (.inl ⟨hf, hn, rfl⟩))
  · rcases reading_next h with ⟨v, -, hn, hl, hm, rfl⟩ | ⟨hn, rfl⟩
    · exact .inr (.inr (.inr (.inr (.inr (.inl ⟨v, hf, hn, hm, rfl⟩)))))
    · exact .inr (.inr (.inr (.inr (.inl ⟨hf, hn, rfl⟩))))
  · rcases reading_next h with ⟨v, -, hn, hl, hm, rfl⟩ | ⟨hn, rfl⟩
    · exact .inr (.inr (.inr (.inr (.inr (.inr (.inr (.inl ⟨v, hf, hn, hm, hl, rfl⟩)))))))
    · exact .inr (.inr (.inr (.inr (.inr (.inr (.inl ⟨hf, hn, rfl⟩))))))
  · simp only [stepEmit, Host.Outcome.next.injEq] at h
    exact .inr (.inr (.inr (.inr (.inr (.inr (.inr (.inr (.inl ⟨hf, h.symm⟩))))))))
  · simp only [Host.Outcome.next.injEq] at h
    exact .inr (.inr (.inr (.inr (.inr (.inr (.inr (.inr (.inr ⟨hf, h.symm⟩))))))))

/-- What no transition changes. -/
theorem transition_frame {s t : State} (h : transition s = .next t) :
    t.cfg = s.cfg ∧ t.nb = s.nb ∧ t.blen = s.blen ∧ t.pending = s.pending ∧ t.answer = s.answer := by
  rcases transition_next h with ⟨-, -, rfl⟩ | ⟨v, -, -, -, rfl⟩ | ⟨-, -, rfl⟩ | ⟨v, -, -, -, rfl⟩ | ⟨-, -, rfl⟩ |
    ⟨v, -, -, -, rfl⟩ | ⟨-, -, rfl⟩ | ⟨v, -, -, -, -, rfl⟩ | ⟨-, rfl⟩ | ⟨-, rfl⟩ <;> try simp
  cases v <;> simp

/-- Everything one STEP can do: a transition, then its answer. -/
theorem stepOnce_next {s t : State} (h : stepOnce s = .next t) :
    ∃ u, transition s = .next u ∧ t = u.succeed (.stepped u.fsm s.emitted) := by
  obtain ⟨u, hu, h⟩ := andThen_next h
  exact ⟨u, hu, by simpa using h.symm⟩

/-- An induction over the transitions of RUN: what holds at the start and is kept by every transition holds of the
state the loop ends in, which is halted. -/
theorem runLoop_induction (P : State → Prop) (hstep : ∀ s t, P s → transition s = .next t → P t) :
    ∀ (k : Nat) (s t : State), P s → runLoop k s = .next t → P t ∧ t.fsm = .halted
  | 0, s, t, hs, h => by
    simp only [runLoop] at h
    split at h
    · rename_i hf; simp only [Host.Outcome.next.injEq] at h; subst h; exact ⟨hs, hf⟩
    · simp at h
  | k + 1, s, t, hs, h => by
    simp only [runLoop] at h
    split at h
    · rename_i hf; simp only [Host.Outcome.next.injEq] at h; subst h; exact ⟨hs, hf⟩
    · obtain ⟨u, hu, h⟩ := andThen_next h
      exact runLoop_induction P hstep k u t (hstep s u hs hu) h

/-- Everything RUN can do: the loop, then its answer. -/
theorem runPass_next {s t : State} (h : runPass s = .next t) :
    ∃ u, runLoop (5 * s.bitLen + 5) s = .next u ∧ t = u.succeed (.messages u.out) := by
  obtain ⟨u, hu, h⟩ := andThen_next h
  exact ⟨u, hu, by simpa using h.symm⟩

end Sys2Proof.Machine
end

