-- ==== Sys2Proof/Laws/PerInstr.lean ====
section
/-! SUPPORT. Decode and encode agree, one lemma per constructor of Instr. -/

/-- Decoding the request that the encoder writes gives the instruction back (30_encoding.md R70 to R81). -/
def Sys2Proof.Laws.RoundTrip.Statement (i : Sys2Proof.Instr) : Prop :=
  ∀ c, Sys2Proof.WellFormed c i = true → Sys2Proof.decode (Sys2Proof.encode i) = .ok i

/-- A stream item that starts with a whole frame. -/
theorem Sys2Proof.Laws.decodeItem_frameBits (length : BitVec 5) (tag : BitVec 2) (data rest : List Sys2Proof.Bit)
    (h : data.length = length.toNat) :
    Sys2Proof.decodeItem (Sys2Proof.Machine.frameBits length tag data ++ rest) = .ok (.frame length tag data, rest) := by
  have h5 : (Sys2Proof.Machine.bitsLsb 5 length.toNat).length = 5 := by simp
  have h2 : (Sys2Proof.Machine.bitsMsb 2 tag.toNat).length = 2 := by simp
  have hl : Sys2Proof.Machine.natLsb (Sys2Proof.Machine.bitsLsb 5 length.toNat) = length.toNat := by
    rw [Sys2Proof.Machine.natLsb_bitsLsb]; exact Nat.mod_eq_of_lt length.isLt
  have ht : Sys2Proof.Machine.natMsb (Sys2Proof.Machine.bitsMsb 2 tag.toNat) = tag.toNat := by
    rw [Sys2Proof.Machine.natMsb_bitsMsb]; exact Nat.mod_eq_of_lt tag.isLt
  generalize hx : Sys2Proof.Machine.bitsLsb 5 length.toNat = x at *
  generalize hy : Sys2Proof.Machine.bitsMsb 2 tag.toNat = y at *
  have e0 : Sys2Proof.Machine.frameBits length tag data ++ rest = true :: (x ++ (y ++ (data ++ rest))) := by
    simp [Sys2Proof.Machine.frameBits, hx, hy]
  have e1 : (x ++ (y ++ (data ++ rest))).take 5 = x := List.take_left' h5
  have e2 : (x ++ (y ++ (data ++ rest))).drop 5 = y ++ (data ++ rest) := List.drop_left' h5
  have e3 : (x ++ (y ++ (data ++ rest))).drop 7 = data ++ rest := by
    rw [show (7 : Nat) = 5 + 2 from rfl, ← List.drop_drop, e2]; exact List.drop_left' h2
  have e4 : (y ++ (data ++ rest)).take 2 = y := List.take_left' h2
  rw [e0]
  simp only [Sys2Proof.decodeItem, e1, e2, e3, e4, hl, ht]
  rw [if_neg (by simp; omega), if_neg (by simp; omega), if_neg (by simp; omega)]
  rw [List.take_left' h, List.drop_left' h]
  simp

/-- All 1024 words of the row, by evaluation. -/
theorem Sys2Proof.Laws.decode_commandWordB1B2 : ∀ (address : BitVec 2) (payload : Sys2Proof.Byte),
    Sys2Proof.decodeCommandFrame (Sys2Proof.Machine.commandWordB1B2 address payload) = .ok (.cmdFrameB1B2 address payload) := by
  decide +kernel

/-- All 1024 words of the row, by evaluation. -/
theorem Sys2Proof.Laws.decode_commandWordW0W1 : ∀ (address : BitVec 2) (payload : Sys2Proof.Byte),
    Sys2Proof.decodeCommandFrame (Sys2Proof.Machine.commandWordW0W1 address payload) = .ok (.cmdFrameW0W1 address payload) := by
  decide +kernel

theorem Sys2Proof.Laws.RoundTrip.rev8 (b : Sys2Proof.Byte) :
    Sys2Proof.Laws.RoundTrip.Statement (.rev8 b) :=
  fun _ _ => rfl

theorem Sys2Proof.Laws.RoundTrip.enccmd (address : Nat) (payload : Sys2Proof.Byte) :
    Sys2Proof.Laws.RoundTrip.Statement (.enccmd address payload) :=
  fun _ _ => rfl

theorem Sys2Proof.Laws.RoundTrip.load (raw : List Sys2Proof.Byte) :
    Sys2Proof.Laws.RoundTrip.Statement (.load raw) :=
  fun _ _ => by simp [Sys2Proof.encode, Sys2Proof.decode, Sys2Proof.decodeOp, Sys2Proof.readBuffer, Except.map]

theorem Sys2Proof.Laws.RoundTrip.peekbit :
    Sys2Proof.Laws.RoundTrip.Statement .peekbit :=
  fun _ _ => rfl

theorem Sys2Proof.Laws.RoundTrip.nextbit :
    Sys2Proof.Laws.RoundTrip.Statement .nextbit :=
  fun _ _ => rfl

theorem Sys2Proof.Laws.RoundTrip.readraw (n : BitVec 5) :
    Sys2Proof.Laws.RoundTrip.Statement (.readraw n) :=
  fun _ _ => rfl

theorem Sys2Proof.Laws.RoundTrip.readrev (n : BitVec 5) :
    Sys2Proof.Laws.RoundTrip.Statement (.readrev n) :=
  fun _ _ => rfl

theorem Sys2Proof.Laws.RoundTrip.step :
    Sys2Proof.Laws.RoundTrip.Statement .step :=
  fun _ _ => rfl

theorem Sys2Proof.Laws.RoundTrip.run :
    Sys2Proof.Laws.RoundTrip.Statement .run :=
  fun _ _ => rfl

theorem Sys2Proof.Laws.RoundTrip.reserved9 :
    Sys2Proof.Laws.RoundTrip.Statement .reserved9 :=
  fun _ _ => rfl

theorem Sys2Proof.Laws.RoundTrip.reservedA :
    Sys2Proof.Laws.RoundTrip.Statement .reservedA :=
  fun _ _ => rfl

theorem Sys2Proof.Laws.RoundTrip.reservedB :
    Sys2Proof.Laws.RoundTrip.Statement .reservedB :=
  fun _ _ => rfl

theorem Sys2Proof.Laws.RoundTrip.reservedC :
    Sys2Proof.Laws.RoundTrip.Statement .reservedC :=
  fun _ _ => rfl

theorem Sys2Proof.Laws.RoundTrip.reservedD :
    Sys2Proof.Laws.RoundTrip.Statement .reservedD :=
  fun _ _ => rfl

theorem Sys2Proof.Laws.RoundTrip.reservedE :
    Sys2Proof.Laws.RoundTrip.Statement .reservedE :=
  fun _ _ => rfl

theorem Sys2Proof.Laws.RoundTrip.reservedF :
    Sys2Proof.Laws.RoundTrip.Statement .reservedF :=
  fun _ _ => rfl

theorem Sys2Proof.Laws.RoundTrip.decode (raw : List Sys2Proof.Byte) :
    Sys2Proof.Laws.RoundTrip.Statement (.decode raw) :=
  fun _ _ => by simp [Sys2Proof.encode, Sys2Proof.decode, Sys2Proof.readBuffer, Except.map]

theorem Sys2Proof.Laws.RoundTrip.cmdFrameB1B2 (address : BitVec 2) (payload : Sys2Proof.Byte) :
    Sys2Proof.Laws.RoundTrip.Statement (.cmdFrameB1B2 address payload) :=
  fun _ _ => Sys2Proof.Laws.decode_commandWordB1B2 address payload

theorem Sys2Proof.Laws.RoundTrip.cmdFrameW0W1 (address : BitVec 2) (payload : Sys2Proof.Byte) :
    Sys2Proof.Laws.RoundTrip.Statement (.cmdFrameW0W1 address payload) :=
  fun _ _ => Sys2Proof.Laws.decode_commandWordW0W1 address payload

theorem Sys2Proof.Laws.RoundTrip.frame (length : BitVec 5) (tag : BitVec 2) (data : List Sys2Proof.Bit) :
    Sys2Proof.Laws.RoundTrip.Statement (.frame length tag data) :=
  fun _ h => by
    have hd : data.length = length.toNat := by simpa [Sys2Proof.WellFormed] using h
    have := Sys2Proof.Laws.decodeItem_frameBits length tag data [] hd
    rw [List.append_nil] at this
    simp [Sys2Proof.encode, Sys2Proof.decode, Sys2Proof.decodeWholeItem, this]

theorem Sys2Proof.Laws.RoundTrip.padding :
    Sys2Proof.Laws.RoundTrip.Statement .padding :=
  fun _ _ => rfl
end

