-- ==== Sys2Proof/Tests/Slice0.lean ====
section
/-! SUPPORT. The model's own tests. Expected values come from spec/95_test_vectors.md (named V.., P..) or from the rule
that a test names; the last part shows, for each statement that has hypotheses, data that meet them all. -/

namespace Sys2Proof.Tests

open Sys2Proof Sys2Proof.Machine

/-! ### Helpers -/

/-- Whether an outcome is a next state with a property. -/
def nextIs (o : Host.Outcome State Fault Refusal) (p : State → Bool) : Bool :=
  match o with
  | .next t    => p t
  | .fault _   => false
  | .refused _ => false

/-- Whether an outcome is this refusal. -/
def refusedWith (o : Host.Outcome State Fault Refusal) (r : Refusal) : Bool :=
  match o with
  | .next _    => false
  | .fault _   => false
  | .refused q => decide (q = r)

/-- Whether a request decodes to this instruction. -/
def decodesTo (r : Request) (i : Instr) : Bool :=
  match decode r with
  | .ok j    => decide (j = i)
  | .error _ => false

/-- Whether a request is refused by the decoder for this reason. -/
def rejectedWith (r : Request) (e : Reject) : Bool :=
  match decode r with
  | .ok _    => false
  | .error q => decide (q = e)

/-- The state after LOAD [0x38, 0x2C] at reset, written from V43-1, with the cursor and the decoder's registers free. -/
def source (cur : Nat) (fsm : Fsm) (len : BitVec 5) (tag : BitVec 2) (data : List Bit) : State :=
  { State.reset with
    nb := [(0, 0x1C), (1, 0x34)], blen := 2, cur := cur, fsm := fsm, len := len, tag := tag, data := data }

/-- The state V43-1 describes. -/
def fresh : State := source 0 .scanning 0 0 []

/-- The message of the source's scenario (V44-3). -/
def sourceMessage : Message := { tag := 1, length := 3, data := [true, false, true] }

theorem nextIs_elim {o : Host.Outcome State Fault Refusal} {p : State → Bool} (h : nextIs o p = true) :
    ∃ t, o = .next t ∧ p t = true := by
  cases o <;> simp_all [nextIs]

/-- The states built by `source` meet the invariant wherever the cursor is far enough for the frame in progress. -/
theorem source_inv (cur : Nat) (fsm : Fsm) (len : BitVec 5) (tag : BitVec 2) (data : List Bit)
    (h1 : cur ≤ 16) (h2 : fsm.headerBitsRead ≤ cur) (h3 : fsm = .emit → data.length = len.toNat) :
    (source cur fsm len tag data).Inv where
  bufferFits := by simp [source, State.reset, State.resetWith]
  memoryWf := by simp [source, Memory.wf]
  validEntries := fun j => by
    match j with
    | 0     => simp [source, Memory.read]
    | 1     => simp [source, Memory.read]
    | j + 2 => simp [source, Memory.read]
  cursorInStream := h1
  messagesPaidFor := by simpa [source, State.reset, State.resetWith] using h2
  messagesWf := by simp [source, State.reset, State.resetWith]
  emitWf := h3

/-! ### WellFormed: an ill-formed term for each check, refused -/

theorem test_wf_load_at_capacity : WellFormed { bufBytes := 2 } (.load [0x38, 0x2C]) = true := by decide
theorem test_wf_refuses_load_above_capacity :
    WellFormed { bufBytes := 2 } (.load [0x38, 0x2C, 0x00]) = false := by decide
theorem test_wf_refuses_decode_above_capacity : WellFormed { bufBytes := 0 } (.decode [0x00]) = false := by decide
theorem test_wf_frame : WellFormed {} (.frame 3 1 [true, false, true]) = true := by decide
theorem test_wf_refuses_frame_with_wrong_data_size :
    WellFormed {} (.frame 3 1 [true, false]) = false := by decide

/-! ### Decoding: words written out from the spec -/

theorem test_decode_rev8 : decodesTo (.opsel 0b0000 { b := 0x38 }) (.rev8 0x38) = true := by decide
theorem test_decode_enccmd :
    decodesTo (.opsel 0b0001 { address := 4, payload := 0xA5 }) (.enccmd 4 0xA5) = true := by decide
theorem test_decode_load :
    decodesTo (.opsel 0b0010 { m := 2, raw := [0x38, 0x2C] }) (.load [0x38, 0x2C]) = true := by decide
theorem test_decode_peekbit : decodesTo (.opsel 0b0011 {}) .peekbit = true := by decide
theorem test_decode_nextbit : decodesTo (.opsel 0b0100 {}) .nextbit = true := by decide
theorem test_decode_readraw : decodesTo (.opsel 0b0101 { n := 31 }) (.readraw 31) = true := by decide
theorem test_decode_readrev : decodesTo (.opsel 0b0110 { n := 5 }) (.readrev 5) = true := by decide
theorem test_decode_step : decodesTo (.opsel 0b0111 {}) .step = true := by decide
theorem test_decode_run : decodesTo (.opsel 0b1000 {}) .run = true := by decide
theorem test_decode_reserved :
    decodesTo (.opsel 0b1001 {}) .reserved9 = true ∧ decodesTo (.opsel 0b1010 {}) .reservedA = true ∧
    decodesTo (.opsel 0b1011 {}) .reservedB = true ∧ decodesTo (.opsel 0b1100 {}) .reservedC = true ∧
    decodesTo (.opsel 0b1101 {}) .reservedD = true ∧ decodesTo (.opsel 0b1110 {}) .reservedE = true ∧
    decodesTo (.opsel 0b1111 {}) .reservedF = true := by decide
theorem test_decode_pseudo : decodesTo (.pseudo 2 [0x38, 0x2C]) (.decode [0x38, 0x2C]) = true := by decide
/-- `aa010001pppppppp` with address 1 (`01`) and payload 0xA5 (V42-2: `b1 = 0x51`). -/
theorem test_decode_b1b2 : decodesTo (.commandFrame 0b0101000110100101) (.cmdFrameB1B2 1 0xA5) = true := by decide
/-- `100010AaPQRSTUVW` with address 2 (`A = 0`, `a = 1`) and payload 0x4D (V42-6: `0x89, 0xB2`). -/
theorem test_decode_w0w1 : decodesTo (.commandFrame 0x89B2) (.cmdFrameW0W1 2 0x4D) = true := by decide
/-- `1 11000 01 101`, the source's frame (30_encoding.md R75, R76). -/
theorem test_decode_frame :
    decodesTo (.streamItem [true, true, true, false, false, false, false, true, true, false, true])
      (.frame 3 1 [true, false, true]) = true := by decide
/-- V30-3: the header of tag 3, length 16 is `1 00001 11`. -/
theorem test_frame_header :
    (frameBits 16 3 []) = [true, false, false, false, false, true, true, true] := by decide
theorem test_decode_padding : decodesTo (.streamItem [false]) .padding = true := by decide

theorem test_reject_byte_count : rejectedWith (.opsel 2 { m := 1, raw := [] }) (.byteCount 1 0) = true := by decide
theorem test_reject_neither_command_form :
    rejectedWith (.commandFrame 0x1200) (.notACommandFrame 0x1200) = true := by decide
theorem test_reject_stream_items :
    rejectedWith (.streamItem []) .emptyItem = true ∧
    rejectedWith (.streamItem [true, true, false, true, false]) .truncatedLength = true ∧
    rejectedWith (.streamItem [true, true, true, false, false, false, true]) .truncatedTag = true ∧
    rejectedWith (.streamItem [true, true, true, false, false, false, false, true, true, false]) .truncatedData = true ∧
    rejectedWith (.streamItem [false, false]) .extraBits = true := by decide

/-! ### The instructions, one step each -/

/-- V41-7, V41-12. -/
theorem test_rev8 :
    nextIs (exec (.rev8 0x38) fresh) (fun t => t.answer == some (.success (.byte 0x1C))) = true ∧
    nextIs (exec (.rev8 0xFE) fresh) (fun t => t.answer == some (.success (.byte 0x7F))) = true := by decide
/-- V42-2, V42-6. -/
theorem test_enccmd :
    nextIs (exec (.enccmd 1 0xA5) fresh) (fun t => t.answer == some (.success (.wire 0x8A 0xA5))) = true ∧
    nextIs (exec (.enccmd 2 0x4D) fresh) (fun t => t.answer == some (.success (.wire 0x89 0xB2))) = true := by decide
/-- V42-9, V42-11, and the largest legal address (V42-7). -/
theorem test_enccmd_address_check :
    nextIs (exec (.enccmd 4 0xA5) fresh) (fun t => t.answer == some (.failure .invalidArgument)) = true ∧
    nextIs (exec (.enccmd 255 0) fresh) (fun t => t.answer == some (.failure .invalidArgument)) = true ∧
    nextIs (exec (.enccmd 3 0) fresh) (fun t => t.answer == some (.success (.wire 0x8B 0))) = true := by decide
/-- V43-1. -/
theorem test_load :
    nextIs (exec (.load [0x38, 0x2C]) State.reset)
      (fun t => decide (t = { fresh with answer := some (.success .nothing) })) = true := by decide
/-- V43-34: what a LOAD in the middle of a pass leaves. -/
theorem test_load_abandons_the_pass :
    nextIs (exec (.load [0x00]) { source 11 .readData 3 1 [] with out := [sourceMessage] })
      (fun t => decide (t.nb = [(0, 0x00)] ∧ t.blen = 1 ∧ t.cur = 0 ∧ t.fsm = .scanning ∧ t.out = [])) = true := by decide
/-- V43-2; V43-15. -/
theorem test_peekbit :
    nextIs (exec .peekbit (source 3 .scanning 0 0 []))
      (fun t => decide (t.answer = some (.success (.bit true)) ∧ t.cur = 3)) = true ∧
    nextIs (exec .peekbit (source 16 .scanning 0 0 [])) (fun t => t.answer == some (.failure .endOfStream)) = true := by
  decide
/-- V43-6; V43-16. -/
theorem test_nextbit :
    nextIs (exec .nextbit (source 3 .scanning 0 0 []))
      (fun t => decide (t.answer = some (.success (.bit true)) ∧ t.cur = 4)) = true ∧
    nextIs (exec .nextbit (source 16 .scanning 0 0 []))
      (fun t => decide (t.answer = some (.failure .endOfStream) ∧ t.cur = 16)) = true := by
  decide
/-- V43-9; V43-10, V43-14: three bits asked with two left, then the two. -/
theorem test_readraw :
    nextIs (exec (.readraw 3) (source 11 .scanning 0 0 []))
      (fun t => decide (t.answer = some (.success (.bits [true, false, true])) ∧ t.cur = 14)) = true ∧
    nextIs (exec (.readraw 3) (source 14 .scanning 0 0 []))
      (fun t => decide (t.answer = some (.failure .endOfStream) ∧ t.cur = 14)) = true ∧
    nextIs (exec (.readraw 2) (source 14 .scanning 0 0 []))
      (fun t => decide (t.answer = some (.success (.bits [false, false])) ∧ t.cur = 16)) = true := by decide
/-- V43-7; V43-28: a byte-aligned READREV of 8 gives the raw byte back. -/
theorem test_readrev :
    nextIs (exec (.readrev 5) (source 4 .scanning 0 0 []))
      (fun t => decide (t.answer = some (.success (.number 3)) ∧ t.cur = 9)) = true ∧
    nextIs (exec (.readrev 8) (source 8 .scanning 0 0 []))
      (fun t => decide (t.answer = some (.success (.number 0x2C)) ∧ t.cur = 16)) = true := by decide
/-- P1, steps 4 to 8. -/
theorem test_step_through_a_frame :
    nextIs (exec .step (source 3 .scanning 0 0 [])) (fun t => decide (t.cur = 4 ∧ t.fsm = .readLength)) = true ∧
    nextIs (exec .step (source 4 .readLength 0 0 [])) (fun t => decide (t.cur = 9 ∧ t.len = 3 ∧ t.fsm = .readTag)) = true ∧
    nextIs (exec .step (source 9 .readTag 3 0 [])) (fun t => decide (t.cur = 11 ∧ t.tag = 1 ∧ t.fsm = .readData)) = true ∧
    nextIs (exec .step (source 11 .readData 3 1 []))
      (fun t => decide (t.cur = 14 ∧ t.data = [true, false, true] ∧ t.fsm = .emit)) = true ∧
    nextIs (exec .step (source 14 .emit 3 1 [true, false, true]))
      (fun t => decide (t.out = [sourceMessage] ∧ t.fsm = .scanning ∧
        t.answer = some (.success (.stepped .scanning (some sourceMessage))))) = true := by decide
/-- P5: a host read took two of the length bits. -/
theorem test_step_after_a_host_read :
    nextIs (exec .step (source 6 .readLength 0 0 [])) (fun t => decide (t.len = 16 ∧ t.cur = 11)) = true ∧
    nextIs (exec .step (source 13 .readData 16 2 [])) (fun t => decide (t.fsm = .halted ∧ t.cur = 13)) = true := by decide
/-- P1 and P4: RUN after LOAD, and RUN again. -/
theorem test_run :
    nextIs (exec .run fresh) (fun t => decide (t.answer = some (.success (.messages [sourceMessage])) ∧ t.cur = 16 ∧
      t.fsm = .halted ∧ t.len = 3 ∧ t.tag = 1)) = true := by decide +kernel
/-- V44-3; V44-13: data truncated by one bit. -/
theorem test_decode :
    nextIs (exec (.decode [0x38, 0x2C]) State.reset) (fun t => decide (t.out = [sourceMessage] ∧ t.cur = 16)) = true ∧
    nextIs (exec (.decode [0x93, 0xFF]) State.reset) (fun t => decide (t.out = [] ∧ t.cur = 8 ∧ t.len = 9)) = true := by
  decide +kernel
/-- P2: three frames, the third cut by the end of the buffer. -/
theorem test_decode_keeps_earlier_messages :
    nextIs (exec (.decode [0x14, 0x8D, 0x41, 0xC9]) State.reset) (fun t => decide
      (t.out = [{ tag := 2, length := 2, data := [true, true] }, { tag := 1, length := 1, data := [false] }] ∧
        t.cur = 32 ∧ t.len = 4 ∧ t.tag = 3 ∧ t.data = [false])) = true := by decide +kernel
/-- U11, after V44-6: under the other bit order the bytes of its NB column give the same messages. -/
theorem test_decode_under_the_other_bit_order :
    nextIs (exec (.decode [0xC0, 0xD1, 0xA0]) (State.resetWith { msbFirstOfReversed := false })) (fun t => decide
      (t.out = [{ tag := 0, length := 1, data := [true] }, { tag := 3, length := 2, data := [false, true] }])) = true := by
  decide +kernel
/-- V42-1 and V42-6 as the two forms of the command frame. -/
theorem test_command_frames :
    nextIs (exec (.cmdFrameB1B2 0 0x00) fresh) (fun t => t.answer == some (.success (.wire 0x88 0x00))) = true ∧
    nextIs (exec (.cmdFrameW0W1 2 0x4D) fresh) (fun t => t.answer == some (.success (.wire 0x89 0xB2))) = true := by decide
/-- The source's frame at bit 3 of its stream, and no frame at bit 2. -/
theorem test_frame :
    nextIs (exec (.frame 3 1 [true, false, true]) (source 3 .scanning 0 0 []))
      (fun t => decide (t.out = [sourceMessage] ∧ t.cur = 14 ∧ t.fsm = .scanning)) = true ∧
    refusedWith (exec (.frame 3 1 [true, false, true]) (source 2 .scanning 0 0 [])) .itemNotAtCursor = true := by
  decide +kernel
/-- P1, step 1; bit 3 is a marker and no padding. -/
theorem test_padding :
    nextIs (exec .padding fresh) (fun t => decide (t.cur = 1 ∧ t.fsm = .scanning)) = true ∧
    refusedWith (exec .padding (source 3 .scanning 0 0 [])) .itemNotAtCursor = true := by decide
/-- V30-1. -/
theorem test_reserved :
    refusedWith (exec .reserved9 fresh) (.reservedSelect 9) = true ∧
    refusedWith (exec .reservedF fresh) (.reservedSelect 15) = true := by decide
/-- V43-35. -/
theorem test_load_above_capacity :
    refusedWith (exec (.load [1, 2, 3]) (State.resetWith { bufBytes := 2 })) (.loadTooLong 3) = true := by decide
/-- V70-1, V70-2, V70-3. -/
theorem test_reset_answers :
    nextIs (exec .peekbit State.reset) (fun t => t.answer == some (.failure .endOfStream)) = true ∧
    nextIs (exec .run State.reset) (fun t => decide (t.answer = some (.success (.messages [])) ∧ t.fsm = .halted)) = true ∧
    nextIs (exec .step State.reset) (fun t => t.fsm == .halted) = true := by decide
/-- V30-7, V30-8, V30-6. -/
theorem test_packing :
    packMessage sourceMessage = 0x1180000005#38 ∧
    packMessage { tag := 3, length := 31, data := List.replicate 31 true } = 0x3FFFFFFFFF#38 ∧
    packBits [false, false, true] = 1#31 := by decide +kernel
/-- A word of the table runs as the first instruction after reset. -/
theorem test_withFetchWord :
    nextIs (step (State.reset.withFetchWord 8 0x7)) (fun t => decide (t.fsm = .halted ∧ t.pending = [])) = true ∧
    nextIs (step (State.reset.withFetchWord 16 0x51A5))
      (fun t => t.answer == some (.success (.wire 0x8A 0xA5))) = true := by decide

/-! ### Witnesses: data that meet the hypotheses of each statement that has some -/

theorem fresh_inv : fresh.Inv := source_inv _ _ _ _ _ (by decide) (by decide) (by decide)

theorem reachable_fresh : Reachable {} { fresh with answer := some (.success .nothing) } :=
  .step (.request (encode (.load [0x38, 0x2C])) .reset) rfl

theorem reachable_halted : ∃ t, Reachable {} t ∧ t.fsm = .halted ∧ t.out = [sourceMessage] := by
  obtain ⟨t, h, ht⟩ := nextIs_elim
    (o := step { State.reset with pending := [.pseudo 2 [0x38, 0x2C]] })
    (p := fun t => decide (t.fsm = .halted ∧ t.out = [sourceMessage])) (by decide +kernel)
  exact ⟨t, .step (.request (.pseudo 2 [0x38, 0x2C]) .reset) h, of_decide_eq_true ht⟩

theorem reachable_emit : ∃ t, Reachable {} t ∧ t.fsm = .emit ∧ t.data.length = 3 := by
  obtain ⟨t1, r1, e1⟩ : ∃ t, Reachable {} t ∧ t = { source 0 .scanning 0 0 [] with answer := some (.success .nothing) } :=
    ⟨_, reachable_fresh, rfl⟩
  have go : ∀ (s : State) (i : Request) (p : State → Bool), Reachable {} s →
      nextIs (step { s with pending := s.pending ++ [i] }) p = true → ∃ t, Reachable {} t ∧ p t = true := by
    intro s i p hs h
    obtain ⟨t, ht, hp⟩ := nextIs_elim h
    exact ⟨t, .step (.request i hs) ht, hp⟩
  obtain ⟨t2, r2, e2⟩ := go t1 (.opsel 5 { n := 3 }) (fun t => decide (t = { source 3 .scanning 0 0 [] with
    answer := some (.success (.bits [false, false, false])) })) r1 (by rw [e1]; decide +kernel)
  obtain ⟨t3, r3, e3⟩ := go t2 (.opsel 7 {}) (fun t => decide (t = { source 4 .readLength 0 0 [] with
    answer := some (.success (.stepped .readLength none)) })) r2 (by rw [of_decide_eq_true e2]; decide +kernel)
  obtain ⟨t4, r4, e4⟩ := go t3 (.opsel 7 {}) (fun t => decide (t = { source 9 .readTag 3 0 [] with
    answer := some (.success (.stepped .readTag none)) })) r3 (by rw [of_decide_eq_true e3]; decide +kernel)
  obtain ⟨t5, r5, e5⟩ := go t4 (.opsel 7 {}) (fun t => decide (t = { source 11 .readData 3 1 [] with
    answer := some (.success (.stepped .readData none)) })) r4 (by rw [of_decide_eq_true e4]; decide +kernel)
  obtain ⟨t6, r6, e6⟩ := go t5 (.opsel 7 {}) (fun t => decide (t.fsm = .emit ∧ t.data.length = 3)) r5
    (by rw [of_decide_eq_true e5]; decide +kernel)
  exact ⟨t6, r6, of_decide_eq_true e6⟩

theorem witness_ResetLeavesAFreshEmptyPass : State.reset.cfg = {} ∧ fresh.cfg = {} := by decide

theorem witness_ResetStateAnswersAsAnEmptyBuffer :
    1 ≤ (1 : BitVec 5).toNat ∧ 1 ≤ (31 : BitVec 5).toNat ∧ 0 ≤ 3 ∧ 3 ≤ 3 := by decide

theorem witness_EveryStepKeepsTheInvariant :
    fresh.Inv ∧ ∃ t, step fresh = .next t := ⟨fresh_inv, _, rfl⟩

/-- The premise at a halted state with a message and at an emitting state; the inner ones at the halted one. -/
theorem witness_ReachableStatesMeetTheNineInvariants :
    (∃ s, Reachable {} s ∧ s.fsm = .halted ∧ sourceMessage ∈ s.out ∧
      ∃ t, exec (.rev8 1) s = .next t ∧ startsPass (.rev8 1) = false) ∧
    ∃ s, Reachable {} s ∧ s.fsm = .emit := by
  obtain ⟨s, hs, hf, ho⟩ := reachable_halted
  obtain ⟨u, hu, hg, -⟩ := reachable_emit
  exact ⟨⟨s, hs, hf, by simp [ho], _, rfl, rfl⟩, u, hu, hg⟩

theorem witness_NothingGoesBackWithinAPass :
    nextIs (exec .nextbit fresh) (fun _ => true) = true ∧ startsPass .nextbit = false := by decide

theorem witness_OnlyLoadLeavesHalted :
    nextIs (exec .nextbit (source 3 .halted 0 0 [])) (fun _ => true) = true ∧
    (source 3 .halted 0 0 []).fsm = .halted ∧ startsPass .nextbit = false := by decide

theorem witness_EveryAdmittedOperationCompletes :
    fresh.Inv ∧ WellFormed fresh.cfg (.load (List.replicate 80 0)) = true ∧
    alwaysAdmitted (.load (List.replicate 80 0)) = true := ⟨fresh_inv, by decide +kernel, rfl⟩

theorem witness_NothingFaultsUnderTheInvariant : fresh.Inv := fresh_inv

/-- One state for each of the three clauses. -/
theorem witness_StepExecutesTheOldestRequest :
    (decode (.opsel 8 {}) = .ok .run ∧ { fresh with pending := [.opsel 8 {}] }.pending = [Request.opsel 8 {}]) ∧
    (decode (.streamItem []) = .error .emptyItem ∧
      { fresh with pending := [.streamItem []] }.pending = [Request.streamItem []]) ∧
    fresh.pending = [] := ⟨⟨rfl, rfl⟩, ⟨rfl, rfl⟩, rfl⟩

theorem witness_DecodeOfEncodeIsTheInstruction :
    WellFormed {} (.frame 31 3 (List.replicate 31 true)) = true ∧ WellFormed { bufBytes := 0 } (.load []) = true := by
  decide

theorem witness_EncodeOfDecodeIsTheRequest :
    decode (.opsel 2 { m := 1, raw := [7] }) = .ok (.load [7]) ∧
    (Request.opsel 2 { m := 1, raw := [7] }).canonical = true ∧
    decodesTo (.commandFrame 0x89B2) (.cmdFrameW0W1 2 0x4D) = true ∧
    decodesTo (.streamItem [true, false, false, false, false, false, true, true]) (.frame 0 3 []) = true :=
  ⟨rfl, rfl, by decide, by decide⟩

theorem witness_ReservedSelectCodesAreRefused :
    9 ≤ (9 : BitVec 4).toNat ∧ 9 ≤ (15 : BitVec 4).toNat ∧
    { fresh with pending := [.opsel 15 {}] }.pending = [Request.opsel 15 {}] := by decide

theorem witness_FsmCodesAreOneToOne : Fsm.ofCode 5 = some .halted ∧ Fsm.code .halted = 5 := by decide

/-- An answer with each of the two failing statuses. -/
theorem witness_StatusesAreAnsweredOnlyByTheirOperations :
    nextIs (exec .nextbit (source 16 .scanning 0 0 []))
      (fun t => t.answer.map Answer.status == some .endOfStream) = true ∧
    nextIs (exec (.enccmd 4 0) fresh) (fun t => t.answer.map Answer.status == some .invalidArgument) = true := by decide

theorem witness_PackedMessagesUnpack :
    ({ tag := 3, length := 31, data := List.replicate 31 true } : Message).wf ∧
    ({ tag := 0, length := 0, data := [] } : Message).wf ∧
    (List.replicate 31 true).length ≤ 31 ∧ (List.replicate 31 true).length ≤ 31 := by
  refine ⟨by simp [Message.wf], by simp [Message.wf], by simp, by simp⟩

theorem witness_Rev8ReversesEveryBit : 0 < 8 ∧ 7 < 8 := by decide

/-- Both sides of the address check. -/
theorem witness_EnccmdChecksThenAnswersTwoBytes : 0 ≤ 3 ∧ 3 ≤ 3 ∧ 3 < 4 := by decide

theorem witness_EnccmdOutputReconstructsItsOperands : 0 ≤ 3 ∧ 3 ≤ 3 := by decide

theorem witness_CommandFrameIsLaidOutAsTheTableSays : 0 < 8 ∧ 7 < 8 := by decide

/-- Ports that carry a buffer; the empty buffer, one of exactly BUF_BYTES, and one of a byte more. -/
theorem witness_LoadBuildsAFreshStream :
    ({ m := 2, raw := [0x38, 0x2C] } : Ports).raw.length = ({ m := 2, raw := [0x38, 0x2C] } : Ports).m ∧
    ([] : List Byte).length ≤ fresh.cfg.bufBytes ∧ (List.replicate 80 (1 : Byte)).length ≤ fresh.cfg.bufBytes ∧
    fresh.cfg.bufBytes < (List.replicate 81 (1 : Byte)).length := by
  decide

theorem witness_BufferAboveTheCapacityIsRefused :
    fresh.cfg.bufBytes < (List.replicate 81 (1 : Byte)).length := by decide

/-- The first and the last bit of the stream. -/
theorem witness_StreamBitIsMostSignificantFirst :
    fresh.cfg.msbFirstOfReversed = true ∧ fresh.nb.read (0 / 8) = some 0x1C ∧ fresh.nb.read (15 / 8) = some 0x34 := by
  decide

theorem witness_StreamAfterLoadIsTheRawBits :
    State.reset.cfg.msbFirstOfReversed = true ∧
    nextIs (exec (.load [0x38, 0x2C]) State.reset) (fun _ => true) = true ∧
    ([0x38, 0x2C] : List Byte)[0]? = some 0x38 ∧ ([0x38, 0x2C] : List Byte)[1]? = some 0x2C ∧ 0 ≤ 7 ∧ 7 ≤ 7 := by decide

theorem witness_StreamAfterLoadUnderEitherReading :
    (State.resetWith { msbFirstOfReversed := false }).cfg.msbFirstOfReversed = false ∧
    nextIs (exec (.load [0x38, 0x2C]) (State.resetWith { msbFirstOfReversed := false })) (fun _ => true) = true ∧
    ([0x38, 0x2C] : List Byte)[1]? = some 0x2C ∧ 7 ≤ 7 := by decide

/-- The cursor at the first bit, at the last bit and at the end. -/
theorem witness_PeekbitAnswersTheBitAtTheCursor :
    (fresh.Inv ∧ fresh.cur < fresh.bitLen) ∧
    ((source 15 .scanning 0 0 []).Inv ∧ (source 15 .scanning 0 0 []).cur < (source 15 .scanning 0 0 []).bitLen) ∧
    (source 16 .scanning 0 0 []).Inv ∧ (source 16 .scanning 0 0 []).cur = (source 16 .scanning 0 0 []).bitLen := by
  refine ⟨⟨fresh_inv, by decide⟩, ⟨source_inv _ _ _ _ _ ?_ ?_ ?_, by decide⟩, source_inv _ _ _ _ _ ?_ ?_ ?_, by decide⟩ <;>
    decide

/-- The same three cursors. -/
theorem witness_NextbitConsumesTheBitAtTheCursor :
    (fresh.Inv ∧ fresh.cur < fresh.bitLen) ∧
    ((source 15 .scanning 0 0 []).Inv ∧ (source 15 .scanning 0 0 []).cur < (source 15 .scanning 0 0 []).bitLen) ∧
    (source 16 .scanning 0 0 []).Inv ∧ (source 16 .scanning 0 0 []).cur = (source 16 .scanning 0 0 []).bitLen :=
  witness_PeekbitAnswersTheBitAtTheCursor

/-- Exactly the bits left (2), one more, and none at the very end. -/
theorem witness_ReadrawConsumesBitsInStreamOrder :
    ((source 14 .scanning 0 0 []).Inv ∧
      (2 : BitVec 5).toNat ≤ (source 14 .scanning 0 0 []).bitLen - (source 14 .scanning 0 0 []).cur ∧
      (source 14 .scanning 0 0 []).bitLen - (source 14 .scanning 0 0 []).cur < (3 : BitVec 5).toNat) ∧
    (source 16 .scanning 0 0 []).Inv ∧
      (0 : BitVec 5).toNat ≤ (source 16 .scanning 0 0 []).bitLen - (source 16 .scanning 0 0 []).cur ∧
      (source 16 .scanning 0 0 []).bitLen - (source 16 .scanning 0 0 []).cur < (31 : BitVec 5).toNat := by
  refine ⟨⟨source_inv _ _ _ _ _ ?_ ?_ ?_, by decide, by decide⟩, source_inv _ _ _ _ _ ?_ ?_ ?_, by decide, by decide⟩ <;>
    decide

/-- The same. -/
theorem witness_ReadrevConsumesAReversedNumber :
    ((source 14 .scanning 0 0 []).Inv ∧
      (2 : BitVec 5).toNat ≤ (source 14 .scanning 0 0 []).bitLen - (source 14 .scanning 0 0 []).cur ∧
      (source 14 .scanning 0 0 []).bitLen - (source 14 .scanning 0 0 []).cur < (3 : BitVec 5).toNat) ∧
    (source 16 .scanning 0 0 []).Inv ∧
      (0 : BitVec 5).toNat ≤ (source 16 .scanning 0 0 []).bitLen - (source 16 .scanning 0 0 []).cur ∧
      (source 16 .scanning 0 0 []).bitLen - (source 16 .scanning 0 0 []).cur < (31 : BitVec 5).toNat :=
  witness_ReadrawConsumesBitsInStreamOrder

theorem witness_FailedOperationsWriteNoState :
    nextIs (exec (.readraw 3) (source 14 .scanning 0 0 [])) (fun t => t.answer == some (.failure .endOfStream)) = true ∧
    nextIs (exec (.enccmd 4 0) fresh) (fun t => t.answer == some (.failure .invalidArgument)) = true := by decide

/-- 15 bits and then the one that is left. -/
theorem witness_SuccessiveReadsJoin :
    (15 : BitVec 5).toNat + (1 : BitVec 5).toNat ≤ 31 ∧
    nextIs (exec (.readraw 15) fresh) (fun t =>
      nextIs (exec (.readraw 1) t) (fun u => u.answer == some (.success (.bits [false])))) = true ∧
    nextIs (exec (.readraw 15) fresh) (fun t => t.answer == some (.success (.bits
      [false, false, false, true, true, true, false, false, false, false, true, true, false, true, false]))) = true := by
  decide

/-- A read that succeeds and one that fails. -/
theorem witness_ReadrevIsNatLsbOfReadraw :
    nextIs (exec (.readraw 5) (source 4 .scanning 0 0 []))
      (fun t => t.answer == some (.success (.bits [true, true, false, false, false]))) = true ∧
    nextIs (exec (.readraw 5) (source 12 .scanning 0 0 [])) (fun t => t.answer == some (.failure .endOfStream)) = true := by
  decide

/-- At the end; at a padding bit; at a marker. -/
theorem witness_StepInScanningSkipsPaddingAndFindsMarkers :
    ((source 16 .scanning 0 0 []).Inv ∧ (source 16 .scanning 0 0 []).cur = (source 16 .scanning 0 0 []).bitLen) ∧
    (fresh.Inv ∧ fresh.cur < fresh.bitLen ∧ fresh.streamBit fresh.cur = .ok false) ∧
    (source 3 .scanning 0 0 []).Inv ∧ (source 3 .scanning 0 0 []).cur < (source 3 .scanning 0 0 []).bitLen ∧
      (source 3 .scanning 0 0 []).streamBit (source 3 .scanning 0 0 []).cur = .ok true := by
  refine ⟨⟨source_inv _ _ _ _ _ ?_ ?_ ?_, by decide⟩, ⟨fresh_inv, by decide, rfl⟩, source_inv _ _ _ _ _ ?_ ?_ ?_,
    by decide, rfl⟩ <;> decide

/-- Five bits left, and four. -/
theorem witness_StepInReadLengthReadsTheReversedLength :
    ((source 11 .readLength 0 0 []).Inv ∧ (source 11 .readLength 0 0 []).fsm = .readLength ∧
      5 ≤ (source 11 .readLength 0 0 []).bitLen - (source 11 .readLength 0 0 []).cur) ∧
    (source 12 .readLength 0 0 []).Inv ∧ (source 12 .readLength 0 0 []).fsm = .readLength ∧
      (source 12 .readLength 0 0 []).bitLen - (source 12 .readLength 0 0 []).cur < 5 := by
  refine ⟨⟨source_inv _ _ _ _ _ ?_ ?_ ?_, rfl, by decide⟩, source_inv _ _ _ _ _ ?_ ?_ ?_, rfl, by decide⟩ <;> decide

/-- Two bits left, and one. -/
theorem witness_StepInReadTagReadsTheTag :
    ((source 14 .readTag 0 0 []).Inv ∧ (source 14 .readTag 0 0 []).fsm = .readTag ∧
      2 ≤ (source 14 .readTag 0 0 []).bitLen - (source 14 .readTag 0 0 []).cur) ∧
    (source 15 .readTag 0 0 []).Inv ∧ (source 15 .readTag 0 0 []).fsm = .readTag ∧
      (source 15 .readTag 0 0 []).bitLen - (source 15 .readTag 0 0 []).cur < 2 := by
  refine ⟨⟨source_inv _ _ _ _ _ ?_ ?_ ?_, rfl, by decide⟩, source_inv _ _ _ _ _ ?_ ?_ ?_, rfl, by decide⟩ <;> decide

/-- LEN equal to the bits left; LEN one more; LEN zero at the end. -/
theorem witness_StepInReadDataReadsLengthBits :
    ((source 13 .readData 3 0 []).Inv ∧ (source 13 .readData 3 0 []).fsm = .readData ∧
      (source 13 .readData 3 0 []).len.toNat ≤ (source 13 .readData 3 0 []).bitLen - (source 13 .readData 3 0 []).cur) ∧
    ((source 13 .readData 4 0 []).Inv ∧ (source 13 .readData 4 0 []).fsm = .readData ∧
      (source 13 .readData 4 0 []).bitLen - (source 13 .readData 4 0 []).cur < (source 13 .readData 4 0 []).len.toNat) ∧
    (source 16 .readData 0 0 []).Inv ∧ (source 16 .readData 0 0 []).fsm = .readData ∧
      (source 16 .readData 0 0 []).len.toNat ≤
        (source 16 .readData 0 0 []).bitLen - (source 16 .readData 0 0 []).cur := by
  refine ⟨⟨source_inv _ _ _ _ _ ?_ ?_ ?_, rfl, by decide⟩, ⟨source_inv _ _ _ _ _ ?_ ?_ ?_, rfl, by decide⟩,
    source_inv _ _ _ _ _ ?_ ?_ ?_, rfl, by decide⟩ <;> decide

theorem witness_StepInEmitAppendsTheMessage : (source 14 .emit 3 1 [true, false, true]).fsm = .emit := rfl

theorem witness_StepAndRunInHaltedChangeNothing : (source 13 .halted 16 2 []).fsm = .halted := rfl

theorem witness_RunIsRepeatedStepWithinTheBound : (source 14 .emit 3 1 [true, false, true]).Inv :=
  source_inv _ _ _ _ _ (by decide) (by decide) (by decide)

theorem witness_EveryStepLowersTheMeasure :
    nextIs (exec .step fresh) (fun t => decide (t.fsm ≠ .halted)) = true := by decide

theorem witness_DecodeIsLoadThenRun :
    ([0x38, 0x2C] : List Byte).length ≤ fresh.cfg.bufBytes ∧
    { fresh with pending := [encode (.load [0x38, 0x2C]), encode .run] }.pending =
      encode (.load [0x38, 0x2C]) :: encode .run :: [] := ⟨by decide, rfl⟩

theorem witness_DecodeIsTheRecursiveFunction :
    (List.replicate 80 (1 : Byte)).length ≤ fresh.cfg.bufBytes ∧ 8 * (List.replicate 80 (1 : Byte)).length < 641 := by
  decide

theorem witness_DecodeDependsOnTheBufferAlone :
    fresh.cfg = (source 13 .halted 16 2 []).cfg ∧ ([0x38, 0x2C] : List Byte).length ≤ fresh.cfg.bufBytes := by decide

/-- V44-4: two frames, the second of length 0, and V44-6, two with no padding between them. -/
theorem witness_FramesDecodeToTheirMessagesInOrder :
    ((∀ x ∈ [(1, { tag := 2, length := 2, data := [true, true] }), (1, { tag := 3, length := 0, data := [] })],
        Message.wf (Prod.snd x)) ∧
      rawStream true [0x8A, 0x16, 0x0C] =
        layout [(1, { tag := 2, length := 2, data := [true, true] }), (1, { tag := 3, length := 0, data := [] })] ++
          List.replicate 4 false) ∧
    (∀ x ∈ [(0, { tag := 0, length := 1, data := [true] }), (0, { tag := 3, length := 2, data := [false, true] })],
        Message.wf (Prod.snd x)) ∧
      rawStream true [0x03, 0x8B, 0x05] =
        layout [(0, { tag := 0, length := 1, data := [true] }), (0, { tag := 3, length := 2, data := [false, true] })] ++
          List.replicate 5 false := by
  refine ⟨⟨by simp [Message.wf], by decide +kernel⟩, by simp [Message.wf], by decide +kernel⟩

/-- V44-13 (cut one bit before its end, nothing before it) and V44-19 (cut after its marker, a frame before it). -/
theorem witness_TruncatedFrameIsDroppedSilently :
    (Message.wf { tag := 1, length := 9, data := List.replicate 9 true } ∧
      Message.bits { tag := 1, length := 9, data := List.replicate 9 true } =
        rawStream true [0x93, 0xFF] ++ [true] ∧
      rawStream true [0x93, 0xFF] = layout [] ++ (List.replicate 0 false ++ rawStream true [0x93, 0xFF]) ∧
      rawStream true [0x93, 0xFF] ≠ []) ∧
    (∀ x ∈ [(3, sourceMessage)], Message.wf (Prod.snd x)) ∧
      Message.bits { tag := 0, length := 0, data := [] } = [true] ++ List.replicate 7 false ∧
      rawStream true [0x38, 0xAC] = layout [(3, sourceMessage)] ++ (List.replicate 1 false ++ [true]) := by
  refine ⟨⟨by simp [Message.wf], by decide +kernel, by simp [layout], by decide +kernel⟩, by simp [Message.wf, sourceMessage],
    by decide +kernel, by decide +kernel⟩

theorem witness_MessagesAreBoundedByBytes :
    nextIs (exec (.decode [0x38, 0x2C]) fresh) (fun _ => true) = true ∧
    4 ≤ fresh.cfg.bufBytes ∧ 80 ≤ fresh.cfg.bufBytes ∧ fresh.cfg.msbFirstOfReversed = true := by decide +kernel

/-- One state for each of the six values of FSM, against one that differs in every register stale there. -/
theorem witness_StaleFieldsAreNeverRead :
    (fresh.SameMeaning (source 0 .scanning 31 3 [true]) ∧ nextIs (exec .run fresh) (fun _ => true) = true) ∧
    ((source 4 .readLength 0 0 []).SameMeaning (source 4 .readLength 31 3 [true]) ∧
      nextIs (exec .step (source 4 .readLength 0 0 [])) (fun _ => true) = true) ∧
    ((source 9 .readTag 3 0 []).SameMeaning (source 9 .readTag 3 2 [true]) ∧
      nextIs (exec .step (source 9 .readTag 3 0 [])) (fun _ => true) = true) ∧
    ((source 11 .readData 3 1 []).SameMeaning (source 11 .readData 3 1 [true]) ∧
      nextIs (exec .step (source 11 .readData 3 1 [])) (fun _ => true) = true) ∧
    ((source 14 .emit 1 1 [true]).SameMeaning (source 14 .emit 1 1 [true]) ∧
      nextIs (exec .step (source 14 .emit 1 1 [true])) (fun _ => true) = true) ∧
    (source 13 .halted 0 0 []).SameMeaning (source 13 .halted 31 3 [true]) ∧
      nextIs (exec .step (source 13 .halted 0 0 [])) (fun _ => true) = true := by
  refine ⟨⟨?_, by decide +kernel⟩, ⟨?_, by decide⟩, ⟨?_, by decide⟩, ⟨?_, by decide⟩, ⟨?_, by decide⟩, ?_, by decide⟩ <;>
    constructor <;> simp [State.SameButFields, fresh, source]

/-- The frame at its place; the wrong place; the wrong decoder state. -/
theorem witness_FrameRowConsumesAWholeFrame :
    [true, false, true].length = (3 : BitVec 5).toNat ∧
    ((source 3 .scanning 0 0 []).fsm = .scanning ∧
      (source 3 .scanning 0 0 []).fetchBits (8 + 3) = .bits (frameBits 3 1 [true, false, true])) ∧
    (source 2 .scanning 0 0 []).fetchBits (8 + 3) ≠ .bits (frameBits 3 1 [true, false, true]) ∧
    (source 3 .halted 0 0 []).fsm ≠ .scanning := by decide +kernel

/-- A padding bit; the end of the stream; a marker. -/
theorem witness_PaddingRowConsumesOneZeroBit :
    (fresh.fsm = .scanning ∧ fresh.cur < fresh.bitLen ∧ fresh.streamBit fresh.cur = .ok false) ∧
    (source 3 .readLength 0 0 []).fsm ≠ .scanning ∧
    (source 16 .scanning 0 0 []).bitLen ≤ (source 16 .scanning 0 0 []).cur ∧
    (source 3 .scanning 0 0 []).streamBit (source 3 .scanning 0 0 []).cur ≠ .ok false := by
  refine ⟨⟨rfl, by decide, rfl⟩, by decide, by decide, ?_⟩
  rw [show (source 3 .scanning 0 0 []).streamBit (source 3 .scanning 0 0 []).cur = .ok true from rfl]; simp

theorem witness_FrameOfTheStatelessOperations :
    nextIs (exec (.enccmd 4 0) fresh) (fun _ => true) = true ∧
    nextIs (exec (.cmdFrameB1B2 3 0) fresh) (fun _ => true) = true := by decide

theorem witness_FrameOfTheReads :
    readsStream (.readraw 3) ∧ nextIs (exec (.readraw 3) (source 11 .readData 3 1 [])) (fun _ => true) = true ∧
    readsStream .peekbit ∧ nextIs (exec .peekbit fresh) (fun _ => true) = true := by
  refine ⟨by simp [readsStream], by decide, by simp [readsStream], by decide⟩

theorem witness_FrameOfTheDecoderOperations :
    nextIs (exec .step fresh) (fun _ => true) = true ∧
    nextIs (exec .run (source 13 .halted 16 2 [])) (fun _ => true) = true ∧
    nextIs (exec (.frame 3 1 [true, false, true]) (source 3 .scanning 0 0 [])) (fun _ => true) = true ∧
    nextIs (exec .padding fresh) (fun _ => true) = true := by decide +kernel

theorem witness_FrameOfTheLoadingOperations :
    nextIs (exec (.load []) fresh) (fun _ => true) = true ∧
    nextIs (exec (.decode [0x38, 0x2C]) fresh) (fun _ => true) = true := by decide +kernel

/-- The cursor at the end of the stream; the largest cursor at the default capacity. -/
theorem witness_CursorFitsItsRegister : (source 16 .scanning 0 0 []).Inv ∧ 8 * 80 < 2 ^ 10 :=
  ⟨source_inv _ _ _ _ _ (by decide) (by decide) (by decide), by decide⟩

end Sys2Proof.Tests
end

section
/-! Proofs of the statements about the reserved select codes (R84), the command frame (R71) and the frames laid in a
stream (R74, R77, R79). -/

open Sys2Proof Sys2Proof.Machine

namespace Sys2Proof.Machine

/-! ### Reserved select codes -/

/-- A step with a request that decodes is the execution of its instruction. -/
theorem step_of_decode {s : State} {r : Request} {q : List Request} {i : Instr} (hp : s.pending = r :: q)
    (hd : decode r = .ok i) : step s = exec i { s with pending := q } := by
  simp [step, hp, hd]

/-- R84: 9 to 15 are seven codes. -/
theorem reserved_code_cases (code : BitVec 4) (h : 9 ≤ code.toNat) :
    code = 0x9 ∨ code = 0xA ∨ code = 0xB ∨ code = 0xC ∨ code = 0xD ∨ code = 0xE ∨ code = 0xF := by
  revert code; decide

/-- A reserved code decodes to its row, whatever the ports, and the row is refused in every state with that code. -/
theorem decode_reserved_refused (code : BitVec 4) (p : Ports) (h : 9 ≤ code.toNat) :
    ∃ i, decode (.opsel code p) = .ok i ∧ ∀ s, exec i s = .refused (.reservedSelect code) := by
  rcases reserved_code_cases code h with rfl | rfl | rfl | rfl | rfl | rfl | rfl <;>
    exact ⟨_, rfl, fun _ => rfl⟩

/-! ### The command frame -/

/-- REV8 undoes itself (R101): bit `i` goes to `7 - i` and back. -/
@[simp] theorem reverse8_reverse8 (b : Byte) : reverse8 (reverse8 b) = b := by
  refine BitVec.eq_of_getLsbD_eq fun i hi => ?_
  rw [getLsbD_reverse8 _ _ hi, getLsbD_reverse8 _ _ (by omega), show 7 - (7 - i) = i by omega]

/-- `b1` of R110 is the first byte of CMDFRAME.b1b2, `aa010001` (R71). -/
theorem commandByte_toNat_eq_append (address : BitVec 2) : commandByte address.toNat = address ++ 0b010001#6 := by
  revert address; decide

theorem toNat_commandByte (address : BitVec 2) : (commandByte address.toNat).toNat = (address.toNat <<< 6 ||| 0x11) := by
  revert address; decide

/-- The four first bytes on the wire (R71). -/
theorem reverse8_commandByte (address : BitVec 2) : reverse8 (commandByte address.toNat) =
    (if address = 0 then 0x88#8 else if address = 1 then 0x8A#8 else if address = 2 then 0x89#8 else 0x8B#8) := by
  revert address; decide

/-- Bit `i` of the first wire byte is bit `7 - i` of `aa010001`: from bit 6 of that byte on the address, below it the
constant. -/
theorem getLsbD_reverse8_commandByte (address : BitVec 2) (i : Nat) (hi : i < 8) :
    (reverse8 (commandByte address.toNat)).getLsbD i =
      if 7 - i < 6 then (0b010001#6).getLsbD (7 - i) else address.getLsbD (7 - i - 6) := by
  rw [getLsbD_reverse8 _ _ hi, commandByte_toNat_eq_append, BitVec.getLsbD_append]

/-- ENCCMD of an address that fits its field answers the two reversed bytes. -/
theorem exec_enccmd_toNat (address : BitVec 2) (payload : Byte) (s : State) :
    exec (.enccmd address.toNat payload) s =
      .next (s.succeed (.wire (reverse8 (commandByte address.toNat)) (reverse8 payload))) := by
  have h : ¬ 3 < address.toNat := by have := address.isLt; omega
  simp [exec, execEnccmd, h]

/-! ### Bits held by the stream -/

theorem State.holdsAt_append {s : State} {a : Nat} {v w : List Bit} :
    s.holdsAt a (v ++ w) ↔ s.holdsAt a v ∧ s.holdsAt (a + v.length) w := by
  constructor
  · intro h
    refine ⟨fun i b hi => h i b ?_, fun i b hi => ?_⟩
    · rw [List.getElem?_append_left (List.getElem?_eq_some_iff.mp hi).1, hi]
    · rw [Nat.add_assoc]
      exact h _ b (by rw [List.getElem?_append_right (by omega), Nat.add_sub_cancel_left, hi])
  · rintro ⟨hv, hw⟩ i b hi
    by_cases hlt : i < v.length
    · exact hv i b (by rwa [List.getElem?_append_left hlt] at hi)
    · rw [List.getElem?_append_right (by omega)] at hi
      rw [show a + i = a + v.length + (i - v.length) by omega]
      exact hw _ b hi

/-- A read of as many bits as the stream holds there finds them. -/
theorem State.memRead_of_holdsAt {s : State} {a : Nat} {v : List Bit} (h : s.holdsAt a v) :
    s.memRead a v.length = .ok v := by
  induction v generalizing a with
  | nil => rfl
  | cons b r ih =>
    obtain ⟨hb, hr⟩ := State.holdsAt_append (v := [b]).mp h
    have hbit : s.streamBit a = .ok b := hb 0 b rfl
    have hrest : s.memRead (a + 1) r.length = .ok r := ih hr
    simp [State.memRead, hbit, hrest]

/-- `v` is what is left of the stream: the bits from the cursor to the end. -/
structure State.Ahead (s : State) (v : List Bit) : Prop where
  holds : s.holdsAt s.cur v
  ends  : s.cur + v.length = s.bitLen

/-- After the bits `v` are consumed the rest is left. The buffer and the cursor alone matter. -/
theorem State.Ahead.consume {s t : State} {v w : List Bit} (h : s.Ahead (v ++ w)) (hcfg : t.cfg = s.cfg)
    (hnb : t.nb = s.nb) (hblen : t.blen = s.blen) (hcur : t.cur = s.cur + v.length) : t.Ahead w where
  holds i b hi := by
    have hw := (State.holdsAt_append.mp h.holds).2 i b hi
    simpa only [State.streamBit, hcfg, hnb, hcur] using hw
  ends := by
    have he := h.ends
    simp only [List.length_append, State.bitLen] at he
    simp only [State.bitLen, hblen, hcur]; omega

/-- A reading operation finds the bits at the front of what is left. -/
theorem State.Ahead.reading_eq {s : State} {v w : List Bit} (h : s.Ahead (v ++ w)) {n : Nat} (hn : v.length = n)
    (found : List Bit → State) (ended : State) : reading s n found ended = .next (found v) := by
  subst hn
  have hm : s.memRead s.cur v.length = .ok v := State.memRead_of_holdsAt (State.holdsAt_append.mp h.holds).1
  have hle : ¬ s.bitsLeft < v.length := by
    have he := h.ends
    simp only [List.length_append] at he
    simp only [State.bitsLeft]; omega
  simp [reading, State.fetchBits, hle, hm]

/-! ### The transitions over what is left of the stream -/

/-- R142 on a `0` bit. -/
theorem transition_padding {s : State} {w : List Bit} (hf : s.fsm = .scanning) (h : s.Ahead (false :: w)) :
    transition s = .next (s.advance 1) := by
  simp [transition, hf, stepScanning, h.reading_eq (v := [false]) (n := 1) rfl, firstBit]

/-- R142 on a marker. -/
theorem transition_marker {s : State} {w : List Bit} (hf : s.fsm = .scanning) (h : s.Ahead (true :: w)) :
    transition s = .next { s with cur := s.cur + 1, fsm := .readLength } := by
  simp [transition, hf, stepScanning, h.reading_eq (v := [true]) (n := 1) rfl, firstBit]

/-- R142 at the end of the stream. -/
theorem transition_end {s : State} (hf : s.fsm = .scanning) (h : s.Ahead []) : transition s = .next s.haltPass := by
  have hlt : s.bitsLeft < 1 := by
    have he := h.ends
    simp only [List.length_nil] at he
    simp only [State.bitsLeft]; omega
  simp only [transition, hf, stepScanning, reading_ended hlt]

/-- R143 on the five bits of a length. -/
theorem transition_length {s : State} {length : BitVec 5} {w : List Bit} (hf : s.fsm = .readLength)
    (h : s.Ahead (bitsLsb 5 length.toNat ++ w)) :
    transition s = .next { s with cur := s.cur + 5, len := length, fsm := .readTag } := by
  simp [transition, hf, stepReadLength, h.reading_eq (length_bitsLsb _ _), natLsb_bitsLsb,
    Nat.mod_eq_of_lt length.isLt]

/-- R144 on the two bits of a tag. -/
theorem transition_tag {s : State} {tag : BitVec 2} {w : List Bit} (hf : s.fsm = .readTag)
    (h : s.Ahead (bitsMsb 2 tag.toNat ++ w)) :
    transition s = .next { s with cur := s.cur + 2, tag := tag, fsm := .readData } := by
  simp [transition, hf, stepReadTag, h.reading_eq (length_bitsMsb _ _), natMsb_bitsMsb,
    Nat.mod_eq_of_lt tag.isLt]

/-- R145 on as many data bits as LEN says. -/
theorem transition_data {s : State} {data w : List Bit} (hf : s.fsm = .readData) (h : s.Ahead (data ++ w))
    (hd : data.length = s.len.toNat) :
    transition s = .next { s with cur := s.cur + data.length, data := data, fsm := .emit } := by
  simp [transition, hf, stepReadData, h.reading_eq hd, hd]

/-- R146. -/
theorem transition_emit {s : State} (hf : s.fsm = .emit) :
    transition s = .next { s with out := s.out ++ [s.message], fsm := .scanning } := by
  simp [transition, hf, stepEmit]

theorem transition_blen {s t : State} (h : transition s = .next t) : t.blen = s.blen := by
  obtain ⟨-, -, hblen, -⟩ := transition_frame h
  exact hblen

/-! ### RUN over padding, a frame, a layout -/

/-- RUN's loop takes a transition for a unit of its fuel. -/
theorem runLoop_succ {s t : State} (hf : s.fsm ≠ .halted) (ht : transition s = .next t) (k : Nat) :
    runLoop (k + 1) s = runLoop k t := by
  simp [runLoop, hf, ht]

theorem runLoop_of_halted {s : State} (hf : s.fsm = .halted) (k : Nat) : runLoop k s = .next s := by
  cases k <;> simp [runLoop, hf]

/-- Padding takes a transition for a bit and moves the cursor only. -/
theorem runLoop_padding {w : List Bit} (p : Nat) {s : State} (hf : s.fsm = .scanning)
    (h : s.Ahead (List.replicate p false ++ w)) (k : Nat) : runLoop (k + p) s = runLoop k (s.advance p) := by
  induction p generalizing s with
  | zero => rfl
  | succ p ih =>
    rw [List.replicate_succ, List.cons_append] at h
    have hrest : (s.advance 1).Ahead (List.replicate p false ++ w) := h.consume (v := [false]) rfl rfl rfl rfl
    rw [← Nat.add_assoc, runLoop_succ (by simp [hf]) (transition_padding hf h), ih (by simpa) hrest]
    simp [State.advance, Nat.add_assoc, Nat.add_comm 1 p]

/-- The state after the frame of `m` has been consumed and its message appended to OUT. -/
def State.afterFrame (s : State) (m : Message) : State :=
  { s with cur := s.cur + m.bits.length, len := m.length, tag := m.tag, data := m.data, out := s.out ++ [m] }

/-- A whole frame takes the five transitions of R142 to R146. -/
theorem runLoop_frame {s : State} {m : Message} {w : List Bit} (hf : s.fsm = .scanning) (hm : m.wf)
    (h : s.Ahead (m.bits ++ w)) (k : Nat) : runLoop (k + 5) s = runLoop k (s.afterFrame m) := by
  simp only [Message.bits, frameBits, List.cons_append, List.append_assoc] at h
  have h1 : State.Ahead { s with cur := s.cur + 1, fsm := .readLength }
      (bitsLsb 5 m.length.toNat ++ (bitsMsb 2 m.tag.toNat ++ (m.data ++ w))) :=
    h.consume (v := [true]) rfl rfl rfl rfl
  have h2 : State.Ahead { s with cur := s.cur + 1 + 5, len := m.length, fsm := .readTag }
      (bitsMsb 2 m.tag.toNat ++ (m.data ++ w)) := h1.consume rfl rfl rfl rfl
  have h3 : State.Ahead { s with cur := s.cur + 1 + 5 + 2, len := m.length, tag := m.tag, fsm := .readData } (m.data ++ w) :=
    h2.consume rfl rfl rfl rfl
  rw [runLoop_succ (by simp [hf]) (transition_marker hf h), runLoop_succ (by simp) (transition_length rfl h1),
    runLoop_succ (by simp) (transition_tag rfl h2), runLoop_succ (by simp) (transition_data rfl h3 hm),
    runLoop_succ (by simp) (transition_emit rfl)]
  simp [State.afterFrame, State.message, Message.bits, hf, Nat.add_assoc]

/-- Frames and the padding before them: at most five transitions for a bit lead to a scanning decoder that has what
follows ahead of it and the messages of the frames in OUT. -/
theorem runLoop_layout {items : List (Nat × Message)} (hwf : ∀ x ∈ items, x.2.wf) {s : State} {w : List Bit}
    (hf : s.fsm = .scanning) (h : s.Ahead (layout items ++ w)) :
    ∃ n t, n ≤ 5 * (layout items).length ∧ (∀ k, runLoop (k + n) s = runLoop k t) ∧ t.fsm = .scanning ∧
      t.out = s.out ++ items.map (·.2) ∧ t.Ahead w := by
  induction items generalizing s with
  | nil => exact ⟨0, s, by simp, fun _ => rfl, hf, by simp, h⟩
  | cons x r ih =>
    obtain ⟨p, m⟩ := x
    obtain ⟨hm, hr⟩ := List.forall_mem_cons.mp hwf
    rw [layout, List.append_assoc, List.append_assoc] at h
    have hpad : (s.advance p).Ahead (m.bits ++ (layout r ++ w)) := h.consume rfl rfl rfl (by simp)
    have hframe : ((s.advance p).afterFrame m).Ahead (layout r ++ w) := hpad.consume rfl rfl rfl rfl
    obtain ⟨n, t, hn, hrun, htf, hout, ht⟩ := ih hr (s := (s.advance p).afterFrame m) hf hframe
    refine ⟨n + 5 + p, t, ?_, fun k => ?_, htf, ?_, ht⟩
    · simp only [layout, Message.bits, List.length_append, List.length_replicate, length_frameBits]; omega
    · rw [← Nat.add_assoc, ← Nat.add_assoc, runLoop_padding p hf h, runLoop_frame (s := s.advance p) hf hm hpad, hrun]
    · simp [hout, State.afterFrame]

/-- RUN over frames, padding between them, and padding after them. -/
theorem runPass_layout {items : List (Nat × Message)} (hwf : ∀ x ∈ items, x.2.wf) {s : State} {trailing : Nat}
    (hf : s.fsm = .scanning) (h : s.Ahead (layout items ++ List.replicate trailing false)) :
    ∃ t, runPass s = .next t ∧ t.out = s.out ++ items.map (·.2) ∧ t.answer = some (.success (.messages t.out)) ∧
      t.fsm = .halted ∧ t.cur = t.bitLen ∧ t.blen = s.blen := by
  obtain ⟨n, t, hn, hrun, htf, hout, ht⟩ := runLoop_layout hwf hf h
  rw [← List.append_nil (List.replicate trailing false)] at ht
  have hend : (t.advance trailing).Ahead [] := ht.consume rfl rfl rfl (by simp)
  obtain ⟨k, hk⟩ : ∃ k, 5 * s.bitLen + 5 = k + 1 + trailing + n := by
    have he := h.ends
    simp only [List.length_append, List.length_replicate] at he
    exact ⟨5 * s.bitLen + 5 - (1 + trailing + n), by omega⟩
  have hloop : runLoop (5 * s.bitLen + 5) s = .next (t.advance trailing).haltPass := by
    rw [hk, hrun, runLoop_padding trailing htf ht, runLoop_succ (by simp [htf]) (transition_end (by simpa) hend),
      runLoop_of_halted rfl]
  have hblen : t.blen = s.blen :=
    (runLoop_induction (·.blen = s.blen) (fun _ _ hu hstep => (transition_blen hstep).trans hu) _ _ _ rfl
      hloop).1
  refine ⟨(t.advance trailing).haltPass.succeed (.messages t.out), ?_, by simpa using hout, rfl, rfl, ?_, hblen⟩
  · rw [runPass, hloop, andThen_of_next]; rfl
  · simpa using hend.ends

/-! ### The stream of a loaded buffer -/

/-- Stream bit `k` of a normalised byte is a bit of the raw byte (R53, U11). -/
theorem byteBit_reverse8 (msbFirst : Bool) (b : Byte) {k : Nat} (hk : k < 8) :
    byteBit msbFirst (reverse8 b) k = if msbFirst then b.getLsbD k else b.getLsbD (7 - k) := by
  simp only [byteBit, getLsbD_reverse8 b k hk, getLsbD_reverse8 b (7 - k) (by omega), show 7 - (7 - k) = k by omega]

/-- A memory that holds the normalised bytes from byte `j` on holds the raw stream from bit `8 * j` on. -/
theorem State.holdsAt_rawStream {s : State} {raw : List Byte} {j : Nat}
    (h : ∀ i, i < raw.length → s.nb.read (j + i) = (raw[i]?).map reverse8) :
    s.holdsAt (8 * j) (rawStream s.cfg.msbFirstOfReversed raw) := by
  induction raw generalizing j with
  | nil => intro i b hi; simp [rawStream] at hi
  | cons r raw ih =>
    rw [rawStream, List.flatMap_cons, State.holdsAt_append]
    constructor
    · intro k b hk
      obtain ⟨hlt, rfl⟩ := List.getElem?_eq_some_iff.mp hk
      simp only [List.length_map, List.length_range] at hlt
      have hread : s.nb.read j = some (reverse8 r) := by simpa using h 0 (by simp)
      simp [State.streamBit, show (8 * j + k) / 8 = j by omega, show (8 * j + k) % 8 = k by omega, hread,
        byteBit_reverse8 _ _ hlt]
    · have hrest := ih (j := j + 1) fun i hi => by
        rw [show j + 1 + i = j + (i + 1) by omega, h (i + 1) (by simpa using hi), List.getElem?_cons_succ]
      simpa [rawStream, Nat.mul_add] using hrest

@[simp] theorem length_rawStream (msbFirst : Bool) (raw : List Byte) :
    (rawStream msbFirst raw).length = 8 * raw.length := by
  simp [rawStream, List.length_flatMap, Nat.mul_comm]

/-- LOAD of a buffer that fits leaves a scanning decoder with the whole raw stream ahead of it and OUT empty (R120). -/
theorem loadBuffer_ahead {raw : List Byte} {s : State} (hfit : raw.length ≤ s.cfg.bufBytes) :
    ∃ t, loadBuffer raw s = .next t ∧ t.fsm = .scanning ∧ t.out = [] ∧ t.blen = raw.length ∧
      t.Ahead (rawStream s.cfg.msbFirstOfReversed raw) := by
  refine ⟨_, by rw [loadBuffer, if_neg (Nat.not_lt.mpr hfit)], rfl, rfl, rfl, ?_, ?_⟩
  · refine State.holdsAt_rawStream (j := 0) fun i _ => ?_
    simp [Memory.read_loaded]
  · simp [State.bitLen]

end Sys2Proof.Machine

/-! ### The statements -/

/-- Settles O14: each reserved code decodes to a row that is refused with that code. -/
theorem reservedSelectCodesAreRefused : Obligations.ReservedSelectCodesAreRefused := by
  unfold Obligations.ReservedSelectCodesAreRefused
  refine ⟨fun s code p q hcode hp => ?_, fun s => ⟨rfl, rfl, rfl, rfl, rfl, rfl, rfl⟩⟩
  obtain ⟨i, hdecode, hrefused⟩ := decode_reserved_refused code p hcode
  rw [step_of_decode hp hdecode, hrefused]

/-- Settles O23, from the first byte `aa010001` before reversal and the bit-by-bit rule of REV8. -/
theorem commandFrameIsLaidOutAsTheTableSays : Obligations.CommandFrameIsLaidOutAsTheTableSays := by
  unfold Obligations.CommandFrameIsLaidOutAsTheTableSays
  intro address payload s
  refine ⟨_, _, exec_enccmd_toNat address payload s, ?_, getLsbD_reverse8 payload, reverse8_commandByte address, ?_, ?_,
    reverse8_reverse8 payload⟩
  · simp only [getLsbD_reverse8_commandByte, Nat.reduceLT, Nat.reduceSub]
    simp
  · rw [reverse8_reverse8, commandByte_toNat_eq_append]
  · rw [reverse8_reverse8, toNat_commandByte]

/-- Settles O49: LOAD puts the layout ahead of a scanning decoder, and RUN consumes it frame by frame. -/
theorem framesDecodeToTheirMessagesInOrder : Obligations.FramesDecodeToTheirMessagesInOrder := by
  unfold Obligations.FramesDecodeToTheirMessagesInOrder
  intro s raw items trailing hfit hwf hstream
  obtain ⟨u, hload, hscan, hempty, hblen, hahead⟩ := loadBuffer_ahead hfit
  rw [hstream] at hahead
  obtain ⟨t, hrun, hout, hanswer, hhalted, hcur, htblen⟩ := runPass_layout hwf hscan hahead
  rw [hempty, List.nil_append] at hout
  refine ⟨t, ?_, hout, hout ▸ hanswer, hhalted, ?_⟩
  · simp [exec, execDecode, hload, hrun]
  · rw [hcur, State.bitLen, htblen, hblen]
end

section
/-! Proofs of the statements about bit reversal (41_bit_reversal.md: R100, R101). -/

open Sys2Proof Sys2Proof.Machine

namespace Sys2Proof.Machine

/-- The wiring reads the bit positions in the opposite order. -/
theorem map_getLsbD_reverse8 (b : Byte) :
    (List.range 8).map (reverse8 b).getLsbD = ((List.range 8).map b.getLsbD).reverse := by
  rw [← List.map_reverse, show (List.range 8).reverse = (List.range 8).map (7 - ·) from rfl, List.map_map]
  exact List.map_congr_left fun i hi => getLsbD_reverse8 b i (List.mem_range.mp hi)

/-- The set bits of a byte are the `true`s among its eight bits. -/
theorem length_filter_getLsbD (b : Byte) :
    ((List.range 8).filter (fun i => b.getLsbD i)).length = ((List.range 8).map b.getLsbD).count true := by
  rw [← List.countP_eq_length_filter, List.count, List.countP_map]
  exact List.countP_congr fun i _ => by simp

end Sys2Proof.Machine

/-- Settles O18, from the bit-by-bit rule of the wiring. -/
theorem rev8ReversesEveryBit : Obligations.Rev8ReversesEveryBit := by
  unfold Obligations.Rev8ReversesEveryBit
  exact ⟨fun _ => rfl, fun b _ => ⟨reverse8 b, getLsbD_reverse8 b, rfl⟩⟩

/-- Settles O19: REV8 undoes itself, and the reversed list of bits has as many `true`s. -/
theorem rev8IsAnInvolution : Obligations.Rev8IsAnInvolution := by
  unfold Obligations.Rev8IsAnInvolution
  have hinv : Function.Involutive reverse8 := reverse8_reverse8
  refine ⟨hinv, hinv.bijective, fun b => ?_⟩
  rw [length_filter_getLsbD, map_getLsbD_reverse8, List.count_reverse, length_filter_getLsbD]
end

section
/-! Proofs of the statements about ENCCMD (42_command_encoder.md: R110, R112). -/

open Sys2Proof Sys2Proof.Machine

namespace Sys2Proof.Machine

/-- An address that passes the check of R110 is the value of a 2-bit field. -/
theorem exists_toNat_eq_of_le_three {address : Nat} (h : address ≤ 3) : ∃ field : BitVec 2, field.toNat = address :=
  ⟨BitVec.ofNat 2 address, by rw [BitVec.toNat_ofNat]; omega⟩

/-- ENCCMD of an address that does not fit its field fails before any byte is made (D28). -/
theorem exec_enccmd_of_three_lt {address : Nat} (h : 3 < address) (payload : Byte) (s : State) :
    exec (.enccmd address payload) s = .next (s.raise .invalidArgument) := by
  rw [exec, execEnccmd, if_pos h]

/-- The low bits that R110 writes as `(0b1000 << 1) | 1` are the constant `0x11` of R112. -/
theorem lor_eight_shiftLeft_lor_one (n : Nat) : (n ||| 0b1000 <<< 1 ||| 1) = (n ||| 0x11) :=
  Nat.or_assoc n _ _

/-- The first wire byte carries the address in its two low bits, the more significant one in bit 0 (R112). -/
theorem toNat_eq_bits_of_reverse8_commandByte (address : BitVec 2) :
    address.toNat = 2 * ((reverse8 (commandByte address.toNat)).getLsbD 0).toNat +
      ((reverse8 (commandByte address.toNat)).getLsbD 1).toNat := by
  have hbit0 : (reverse8 (commandByte address.toNat)).getLsbD 0 = address.getLsbD 1 :=
    getLsbD_reverse8_commandByte address 0 (by decide)
  have hbit1 : (reverse8 (commandByte address.toNat)).getLsbD 1 = address.getLsbD 0 :=
    getLsbD_reverse8_commandByte address 1 (by decide)
  rw [hbit0, hbit1]
  revert address; decide

end Sys2Proof.Machine

/-- Settles O21: the two sides of the address check, with `b1` the command byte of the 2-bit field. -/
theorem enccmdChecksThenAnswersTwoBytes : Obligations.EnccmdChecksThenAnswersTwoBytes := by
  unfold Obligations.EnccmdChecksThenAnswersTwoBytes
  refine ⟨fun _ => rfl, fun address payload s => ⟨fun hfits => ?_, fun hlarge => ?_⟩⟩
  · obtain ⟨field, rfl⟩ := exists_toNat_eq_of_le_three hfits
    refine ⟨commandByte field.toNat, ?_, exec_enccmd_toNat field payload s⟩
    rw [toNat_commandByte, lor_eight_shiftLeft_lor_one]
  · exact exec_enccmd_of_three_lt hlarge payload s

/-- Settles O22: REV8 undoes itself on both bytes, and the first wire byte holds the address in its two low bits. -/
theorem enccmdOutputReconstructsItsOperands : Obligations.EnccmdOutputReconstructsItsOperands := by
  unfold Obligations.EnccmdOutputReconstructsItsOperands
  intro address payload s hfits
  obtain ⟨field, rfl⟩ := exists_toNat_eq_of_le_three hfits
  refine ⟨_, _, exec_enccmd_toNat field payload s, ?_, reverse8_reverse8 payload,
    toNat_eq_bits_of_reverse8_commandByte field⟩
  rw [reverse8_reverse8, toNat_commandByte]
end

section
/-! Proofs of the statements about the four reads (43_bitstream_reader.md: R121 to R124). -/

open Sys2Proof Sys2Proof.Machine

namespace Sys2Proof.Machine

/-- Bit `i` of the number of R124 is the `i`-th bit read; past the sequence both are 0. -/
theorem testBit_natLsb (v : List Bit) (i : Nat) : (natLsb v).testBit i = v.getD i false := by
  induction v generalizing i with
  | nil => simp [natLsb]
  | cons b r ih =>
    have hbit : natLsb (b :: r) = Nat.bit b (natLsb r) := by rw [natLsb, Nat.bit_val, Nat.add_comm]
    rw [hbit]
    cases i with
    | zero => simp
    | succ i => rw [Nat.testBit_bit_succ, ih, List.getD_cons_succ]

/-- With `n` bits left a reading operation finds `n` bits that the stream holds at the cursor. -/
theorem State.Inv.reading_held {s : State} (h : s.Inv) {n : Nat} (hn : n ≤ s.bitLen - s.cur)
    (found : List Bit → State) (ended : State) :
    ∃ v, v.length = n ∧ s.holdsAt s.cur v ∧ reading s n found ended = .next (found v) := by
  obtain ⟨v, hlength, hread, hnext⟩ := h.reading_found (found := found) (ended := ended) hn
  exact ⟨v, hlength, fun _ _ hi => State.memRead_get hread hi, hnext⟩

/-- Below the end of the stream a reading operation of one bit finds the bit at the cursor. -/
theorem State.Inv.reading_bit {s : State} (h : s.Inv) (hcur : s.cur < s.bitLen) (found : List Bit → State)
    (ended : State) : ∃ b, s.streamBit s.cur = .ok b ∧ reading s 1 found ended = .next (found [b]) := by
  obtain ⟨v, hlength, hheld, hnext⟩ := h.reading_held (n := 1) (by omega) found ended
  obtain ⟨b, rfl⟩ := List.length_eq_one_iff.mp hlength
  exact ⟨b, hheld 0 b rfl, hnext⟩

/-- At the end of the stream a reading operation of one bit ends. -/
theorem reading_bit_of_cur_eq_bitLen {s : State} (hcur : s.cur = s.bitLen) (found : List Bit → State) (ended : State) :
    reading s 1 found ended = .next ended :=
  reading_ended (by rw [State.bitsLeft, hcur, Nat.sub_self]; exact Nat.one_pos)

end Sys2Proof.Machine

/-- Settles O30: the two cases of a one-bit read, with nothing consumed. -/
theorem peekbitAnswersTheBitAtTheCursor : Obligations.PeekbitAnswersTheBitAtTheCursor := by
  unfold Obligations.PeekbitAnswersTheBitAtTheCursor
  exact ⟨fun _ => rfl, fun s hinv =>
    ⟨fun hcur => hinv.reading_bit hcur _ _, fun hcur => reading_bit_of_cur_eq_bitLen hcur _ _⟩⟩

/-- Settles O31: the two cases of a one-bit read, the bit consumed when it is there. -/
theorem nextbitConsumesTheBitAtTheCursor : Obligations.NextbitConsumesTheBitAtTheCursor := by
  unfold Obligations.NextbitConsumesTheBitAtTheCursor
  exact ⟨fun _ => rfl, fun s hinv =>
    ⟨fun hcur => hinv.reading_bit hcur _ _, fun hcur => reading_bit_of_cur_eq_bitLen hcur _ _⟩⟩

/-- Settles O32: a read of `n` bits finds what the stream holds at the cursor, or ends with nothing consumed. -/
theorem readrawConsumesBitsInStreamOrder : Obligations.ReadrawConsumesBitsInStreamOrder := by
  unfold Obligations.ReadrawConsumesBitsInStreamOrder
  exact ⟨fun _ => rfl, fun s n hinv => ⟨fun hleft => hinv.reading_held hleft _ _, fun hfew => reading_ended hfew⟩⟩

/-- Settles O33: the read of O32, its answer the number with the first bit read least significant. -/
theorem readrevConsumesAReversedNumber : Obligations.ReadrevConsumesAReversedNumber := by
  unfold Obligations.ReadrevConsumesAReversedNumber
  refine ⟨fun _ => rfl, fun s n hinv => ⟨fun hleft => ?_, fun hfew => reading_ended hfew⟩⟩
  obtain ⟨v, hlength, hheld, hnext⟩ := hinv.reading_held hleft
    (fun v => (s.advance n.toNat).succeed (.number (natLsb v))) (s.raise .endOfStream)
  exact ⟨v, natLsb v, hlength, hheld, hlength ▸ natLsb_lt v, fun i _ => testBit_natLsb v i, hnext⟩
end

section
/-! Proofs of the statements about single STEPs of the frame decoder (44_frame_decoder.md: R142 to R146). -/

open Sys2Proof Sys2Proof.Machine

namespace Sys2Proof.Machine

/-- STEP is the transition and its answer: outside Emit, FSM after it and no message (R141). -/
theorem exec_step_of_transition {s t : State} (hf : s.fsm ≠ .emit) (ht : transition s = .next t) :
    exec .step s = .next (t.succeed (.stepped t.fsm none)) := by
  have hnone : s.emitted = none := by
    cases hs : s.fsm <;> simp_all [State.emitted]
  rw [exec, execStep, stepOnce, ht, andThen_of_next, hnone]

/-! ### The transition by the value of FSM (R141) -/

theorem transition_of_scanning {s : State} (hf : s.fsm = .scanning) : transition s = stepScanning s := by
  simp only [transition, hf]

theorem transition_of_readLength {s : State} (hf : s.fsm = .readLength) : transition s = stepReadLength s := by
  simp only [transition, hf]

theorem transition_of_readTag {s : State} (hf : s.fsm = .readTag) : transition s = stepReadTag s := by
  simp only [transition, hf]

theorem transition_of_readData {s : State} (hf : s.fsm = .readData) : transition s = stepReadData s := by
  simp only [transition, hf]

/-- R147. -/
theorem transition_of_halted {s : State} (hf : s.fsm = .halted) : transition s = .next s := by
  simp only [transition, hf]

/-! ### Transitions with too few bits left (R173) -/

theorem transition_readLength_ended {s : State} (hf : s.fsm = .readLength) (hfew : s.bitsLeft < 5) :
    transition s = .next s.haltPass := by
  rw [transition_of_readLength hf, stepReadLength, reading_ended hfew]

theorem transition_readTag_ended {s : State} (hf : s.fsm = .readTag) (hfew : s.bitsLeft < 2) :
    transition s = .next s.haltPass := by
  rw [transition_of_readTag hf, stepReadTag, reading_ended hfew]

theorem transition_readData_ended {s : State} (hf : s.fsm = .readData) (hfew : s.bitsLeft < s.len.toNat) :
    transition s = .next s.haltPass := by
  rw [transition_of_readData hf, stepReadData, reading_ended hfew]

/-! ### The number of a field from its bits (R75, R76) -/

theorem natLsb_five (b0 b1 b2 b3 b4 : Bit) :
    natLsb [b0, b1, b2, b3, b4] = b0.toNat + 2 * b1.toNat + 4 * b2.toNat + 8 * b3.toNat + 16 * b4.toNat := by
  simp only [natLsb]; ring

theorem natMsb_two (u0 u1 : Bit) : natMsb [u0, u1] = 2 * u0.toNat + u1.toNat := by
  simp [natMsb, Nat.mul_comm]

end Sys2Proof.Machine

/-- Settles O38: the one-bit read of Scanning, at the end of the stream and below it. -/
theorem stepInScanningSkipsPaddingAndFindsMarkers : Obligations.StepInScanningSkipsPaddingAndFindsMarkers := by
  unfold Obligations.StepInScanningSkipsPaddingAndFindsMarkers
  intro s hinv hf
  have hemit : s.fsm ≠ .emit := by simp [hf]
  refine ⟨fun hcur => ?_, fun hcur => ?_⟩
  · have ht : transition s = .next s.haltPass := by
      rw [transition_of_scanning hf, stepScanning, reading_bit_of_cur_eq_bitLen hcur]
    exact exec_step_of_transition hemit ht
  · obtain ⟨b, hb, hnext⟩ := hinv.reading_bit hcur
      (fun v => if firstBit v then { s.advance 1 with fsm := .readLength } else s.advance 1) s.haltPass
    rw [← stepScanning, ← transition_of_scanning hf] at hnext
    refine ⟨b, hb, ?_, ?_⟩
    · rintro rfl
      rw [exec_step_of_transition hemit hnext]
      simp [firstBit, State.succeed, State.advance, hf]
    · rintro rfl
      exact exec_step_of_transition hemit hnext

/-- Settles O39: the five-bit read of ReadLength. -/
theorem stepInReadLengthReadsTheReversedLength : Obligations.StepInReadLengthReadsTheReversedLength := by
  unfold Obligations.StepInReadLengthReadsTheReversedLength
  intro s hinv hf
  have hemit : s.fsm ≠ .emit := by simp [hf]
  refine ⟨fun hfew => exec_step_of_transition hemit (transition_readLength_ended hf hfew), fun hleft => ?_⟩
  obtain ⟨v, hlength, hheld, hnext⟩ := hinv.reading_held hleft
    (fun v => { s.advance 5 with len := BitVec.ofNat 5 (natLsb v), fsm := .readTag }) s.haltPass
  rw [← stepReadLength, ← transition_of_readLength hf] at hnext
  obtain ⟨b0, r, rfl⟩ := List.exists_cons_of_length_eq_add_one hlength
  obtain ⟨b1, b2, b3, b4, rfl⟩ := List.length_eq_four.mp (Nat.succ.inj hlength)
  refine ⟨b0, b1, b2, b3, b4, hheld, ?_⟩
  rw [exec_step_of_transition hemit hnext, natLsb_five]; rfl

/-- Settles O40: the two-bit read of ReadTag. -/
theorem stepInReadTagReadsTheTag : Obligations.StepInReadTagReadsTheTag := by
  unfold Obligations.StepInReadTagReadsTheTag
  intro s hinv hf
  have hemit : s.fsm ≠ .emit := by simp [hf]
  refine ⟨fun hfew => exec_step_of_transition hemit (transition_readTag_ended hf hfew), fun hleft => ?_⟩
  obtain ⟨v, hlength, hheld, hnext⟩ := hinv.reading_held hleft
    (fun v => { s.advance 2 with tag := BitVec.ofNat 2 (natMsb v), fsm := .readData }) s.haltPass
  rw [← stepReadTag, ← transition_of_readTag hf] at hnext
  obtain ⟨u0, u1, rfl⟩ := List.length_eq_two.mp hlength
  refine ⟨u0, u1, hheld, ?_⟩
  rw [exec_step_of_transition hemit hnext, natMsb_two]; rfl

/-- Settles O41: the read of LEN bits in ReadData; LEN = 0 always finds its bits. -/
theorem stepInReadDataReadsLengthBits : Obligations.StepInReadDataReadsLengthBits := by
  unfold Obligations.StepInReadDataReadsLengthBits
  intro s hinv hf
  have hemit : s.fsm ≠ .emit := by simp [hf]
  refine ⟨fun hfew => exec_step_of_transition hemit (transition_readData_ended hf hfew), fun hleft => ?_⟩
  obtain ⟨v, hlength, hheld, hnext⟩ := hinv.reading_held hleft
    (fun v => { s.advance s.len.toNat with data := v, fsm := .emit }) s.haltPass
  rw [← stepReadData, ← transition_of_readData hf] at hnext
  exact ⟨v, hlength, hheld, exec_step_of_transition hemit hnext⟩

/-- Settles O42: the transition of Emit, its message in OUT and in the answer. -/
theorem stepInEmitAppendsTheMessage : Obligations.StepInEmitAppendsTheMessage := by
  unfold Obligations.StepInEmitAppendsTheMessage
  intro s hf
  have hemitted : s.emitted = some s.message := by simp only [State.emitted, hf]
  rw [exec, execStep, stepOnce, transition_emit hf, andThen_of_next, hemitted]
  rfl
end

section
/-! Proofs of the statement that DECODE depends on the buffer alone (44_frame_decoder.md: R149, R151, R152). -/

open Sys2Proof Sys2Proof.Machine

namespace Sys2Proof.Machine

/-! ### Every transition keeps the invariant (R34) -/

/-- In a state that meets the invariant every transition is made. -/
theorem State.Inv.transition_completes {s : State} (h : s.Inv) : ∃ t, transition s = .next t := by
  cases hf : s.fsm with
  | scanning => rw [transition_of_scanning hf]; exact h.reading_completes _ _ _
  | readLength => rw [transition_of_readLength hf]; exact h.reading_completes _ _ _
  | readTag => rw [transition_of_readTag hf]; exact h.reading_completes _ _ _
  | readData => rw [transition_of_readData hf]; exact h.reading_completes _ _ _
  | emit => exact ⟨_, transition_emit hf⟩
  | halted => exact ⟨s, transition_of_halted hf⟩

/-- Over an unchanged buffer the invariant is a matter of the cursor, OUT and the registers. -/
theorem State.Inv.of_same_buffer {s t : State} (h : s.Inv) (hcfg : t.cfg = s.cfg) (hnb : t.nb = s.nb)
    (hblen : t.blen = s.blen) (hcur : t.cur ≤ s.bitLen) (hpaid : 8 * t.out.length + t.fsm.headerBitsRead ≤ t.cur)
    (hwf : ∀ m ∈ t.out, m.wf) (hemit : t.fsm = .emit → t.data.length = t.len.toNat) : t.Inv where
  bufferFits := by rw [hblen, hcfg]; exact h.bufferFits
  memoryWf := hnb ▸ h.memoryWf
  validEntries := by rw [hnb, hblen]; exact h.validEntries
  cursorInStream := by rw [State.bitLen, hblen]; exact hcur
  messagesPaidFor := hpaid
  messagesWf := hwf
  emitWf := hemit

/-- A read of `n` bits that are left keeps the invariant when it accounts for at most `n` more header bits. -/
theorem State.Inv.of_read {s t : State} {n : Nat} (h : s.Inv) (hn : n ≤ s.bitsLeft) (hcfg : t.cfg = s.cfg)
    (hnb : t.nb = s.nb) (hblen : t.blen = s.blen) (hcur : t.cur = s.cur + n) (hout : t.out = s.out)
    (hheader : t.fsm.headerBitsRead ≤ s.fsm.headerBitsRead + n)
    (hemit : t.fsm = .emit → t.data.length = t.len.toNat) : t.Inv := by
  have hin := h.cursorInStream
  have hpaid := h.messagesPaidFor
  rw [State.bitsLeft] at hn
  exact h.of_same_buffer hcfg hnb hblen (by omega) (by rw [hout]; omega) (hout ▸ h.messagesWf) hemit

theorem State.Inv.haltPass_inv {s : State} (h : s.Inv) : s.haltPass.Inv :=
  h.of_same_buffer rfl rfl rfl h.cursorInStream ((Nat.le_add_right _ _).trans h.messagesPaidFor) h.messagesWf (by simp)

/-- The message appended in Emit is well-formed, and the eight bits of its header pay for it. -/
theorem State.Inv.emit_inv {s : State} (h : s.Inv) (hf : s.fsm = .emit) :
    State.Inv { s with out := s.out ++ [s.message], fsm := .scanning } := by
  have hpaid := h.messagesPaidFor
  rw [hf, Fsm.headerBitsRead] at hpaid
  refine h.of_same_buffer rfl rfl rfl h.cursorInStream ?_ ?_ (by simp)
  · simp only [List.length_append, List.length_singleton, Fsm.headerBitsRead]; omega
  · intro m hm
    rcases List.mem_append.mp hm with hm | hm
    · exact h.messagesWf m hm
    · rw [List.mem_singleton.mp hm]; exact h.emitWf hf

theorem State.Inv.transition_inv {s t : State} (h : s.Inv) (ht : transition s = .next t) : t.Inv := by
  rcases transition_next ht with ⟨-, -, rfl⟩ | ⟨v, hf, hleft, -, rfl⟩ | ⟨-, -, rfl⟩ | ⟨v, hf, hleft, -, rfl⟩ |
    ⟨-, -, rfl⟩ | ⟨v, hf, hleft, -, rfl⟩ | ⟨-, -, rfl⟩ | ⟨v, hf, hleft, -, hlength, rfl⟩ | ⟨hf, rfl⟩ | ⟨-, rfl⟩
  · exact h.haltPass_inv
  · cases v with
    | false => exact h.of_read hleft rfl rfl rfl rfl rfl (by simp) (by simp [hf])
    | true => exact h.of_read hleft rfl rfl rfl rfl rfl (by simp [hf, Fsm.headerBitsRead]) (by simp)
  · exact h.haltPass_inv
  · exact h.of_read hleft rfl rfl rfl rfl rfl (by simp [hf, Fsm.headerBitsRead]) (by simp)
  · exact h.haltPass_inv
  · exact h.of_read hleft rfl rfl rfl rfl rfl (by simp [hf, Fsm.headerBitsRead]) (by simp)
  · exact h.haltPass_inv
  · exact h.of_read hleft rfl rfl rfl rfl rfl (by simp [hf, Fsm.headerBitsRead]) fun _ => hlength
  · exact h.emit_inv hf
  · exact h

/-! ### The measure of R151 bounds a pass -/

theorem State.mu_le (s : State) : s.mu ≤ 5 * s.bitLen + 4 := by
  have hweight : s.fsm.weight ≤ 4 := by cases s.fsm <;> decide
  have hleft : s.bitsLeft ≤ s.bitLen := Nat.sub_le _ _
  rw [State.mu]; omega

/-- A read of `n` bits that are left lowers the measure when the weight rises by less than `5 * n`. -/
theorem State.mu_lt_of_read {s t : State} {n : Nat} (hn : n ≤ s.bitsLeft) (hblen : t.blen = s.blen)
    (hcur : t.cur = s.cur + n) (hweight : t.fsm.weight < s.fsm.weight + 5 * n) : t.mu < s.mu := by
  rw [State.bitsLeft] at hn
  simp only [State.mu, State.bitsLeft, State.bitLen, hblen, hcur] at hn ⊢
  omega

/-- R151: every transition that does not end in Halted lowers the measure. -/
theorem transition_mu_lt {s t : State} (ht : transition s = .next t) (hrunning : t.fsm ≠ .halted) : t.mu < s.mu := by
  rcases transition_next ht with ⟨-, -, rfl⟩ | ⟨v, hf, hleft, -, rfl⟩ | ⟨-, -, rfl⟩ | ⟨v, hf, hleft, -, rfl⟩ |
    ⟨-, -, rfl⟩ | ⟨v, hf, hleft, -, rfl⟩ | ⟨-, -, rfl⟩ | ⟨v, hf, hleft, -, -, rfl⟩ | ⟨hf, rfl⟩ | ⟨hf, rfl⟩
  · exact absurd rfl hrunning
  · cases v with
    | false => exact State.mu_lt_of_read hleft rfl rfl (by simp)
    | true => exact State.mu_lt_of_read hleft rfl rfl (by simp [hf, Fsm.weight])
  · exact absurd rfl hrunning
  · exact State.mu_lt_of_read hleft rfl rfl (by simp [hf, Fsm.weight])
  · exact absurd rfl hrunning
  · exact State.mu_lt_of_read hleft rfl rfl (by simp [hf, Fsm.weight])
  · exact absurd rfl hrunning
  · exact State.mu_lt_of_read hleft rfl rfl (by simp [hf, Fsm.weight]; omega)
  · exact State.mu_lt_of_read (n := 0) (Nat.zero_le _) rfl rfl (by simp [hf, Fsm.weight])
  · exact absurd hf hrunning

/-- Everything RUN's loop can do when it answers a next state: stop in Halted, or spend a unit of its fuel. -/
theorem runLoop_next {k : Nat} {s t : State} (h : runLoop k s = .next t) :
    (s.fsm = .halted ∧ t = s) ∨
    ∃ j u, k = j + 1 ∧ s.fsm ≠ .halted ∧ transition s = .next u ∧ runLoop j u = .next t := by
  by_cases hf : s.fsm = .halted
  · rw [runLoop_of_halted hf] at h
    cases h
    exact .inl ⟨hf, rfl⟩
  · cases k with
    | zero => rw [runLoop, if_neg hf] at h; cases h
    | succ j =>
      rw [runLoop, if_neg hf] at h
      obtain ⟨u, hu, h⟩ := andThen_next h
      exact .inr ⟨j, u, rfl, hf, hu, h⟩

/-- With more fuel than the measure the loop of RUN reaches Halted. -/
theorem State.Inv.runLoop_completes {s : State} (h : s.Inv) {k : Nat} (hk : s.mu < k) : ∃ t, runLoop k s = .next t := by
  induction k generalizing s with
  | zero => exact absurd hk (Nat.not_lt_zero _)
  | succ k ih =>
    by_cases hf : s.fsm = .halted
    · exact ⟨s, runLoop_of_halted hf _⟩
    obtain ⟨u, hu⟩ := h.transition_completes
    rw [runLoop_succ hf hu]
    by_cases hfu : u.fsm = .halted
    · exact ⟨u, runLoop_of_halted hfu k⟩
    · exact ih (h.transition_inv hu) (by have := transition_mu_lt hu hfu; omega)

theorem runPass_of_runLoop {s t : State} (h : runLoop (5 * s.bitLen + 5) s = .next t) :
    runPass s = .next (t.succeed (.messages t.out)) := by
  rw [runPass, h, andThen_of_next]

/-! ### Two runs of one pass -/

/-- Two states at the same point of a pass: the same parameters, buffer, cursor, FSM and OUT, and the same values of
LEN, TAG and DATA where R25 to R27 do not make them stale. The host's requests and the last answer may differ. -/
structure State.SamePass (s s' : State) : Prop where
  cfg : s.cfg = s'.cfg
  nb : s.nb = s'.nb
  blen : s.blen = s'.blen
  cur : s.cur = s'.cur
  fsm : s.fsm = s'.fsm
  out : s.out = s'.out
  length : s.fsm = .readTag ∨ s.fsm = .readData ∨ s.fsm = .emit → s.len = s'.len
  tag : s.fsm = .readData ∨ s.fsm = .emit → s.tag = s'.tag
  data : s.fsm = .emit → s.data = s'.data

theorem State.SamePass.bitLen_eq {s s' : State} (h : s.SamePass s') : s.bitLen = s'.bitLen := by
  rw [State.bitLen, State.bitLen, h.blen]

theorem State.SamePass.fetchBits_eq {s s' : State} (h : s.SamePass s') (n : Nat) : s.fetchBits n = s'.fetchBits n := by
  rw [State.fetchBits, State.fetchBits, State.bitsLeft, State.bitsLeft, h.bitLen_eq, h.cur,
    State.memRead_congr h.cfg h.nb]

theorem State.SamePass.haltPass {s s' : State} (h : s.SamePass s') : s.haltPass.SamePass s'.haltPass where
  cfg := h.cfg
  nb := h.nb
  blen := h.blen
  cur := h.cur
  fsm := rfl
  out := h.out
  length := by simp
  tag := by simp
  data := by simp

/-- Reading operations that fetch the same bits answer states related as what they do with those bits is. -/
theorem reading_related {R : State → State → Prop} {s s' t : State} {n : Nat} {found found' : List Bit → State}
    {ended ended' : State} (hfetch : s.fetchBits n = s'.fetchBits n) (hfound : ∀ v, R (found v) (found' v))
    (hended : R ended ended') (h : reading s n found ended = .next t) :
    ∃ t', reading s' n found' ended' = .next t' ∧ R t t' := by
  rw [reading, hfetch] at h
  rw [reading]
  cases hf : s'.fetchBits n with
  | bits v => rw [hf] at h; cases h; exact ⟨_, rfl, hfound v⟩
  | endOfStream => rw [hf] at h; cases h; exact ⟨_, rfl, hended⟩
  | fault f => rw [hf] at h; cases h

/-- A transition reads no stale register, and makes none meaningful without writing it. -/
theorem State.SamePass.transition_related {s s' t : State} (h : s.SamePass s') (ht : transition s = .next t) :
    ∃ t', transition s' = .next t' ∧ t.SamePass t' := by
  have ⟨hcfg, hnb, hblen, hcur, hfsm, hout, hlen, htag, hdata⟩ := h
  cases hf : s.fsm with
  | scanning =>
    rw [transition_of_scanning hf] at ht
    rw [transition_of_scanning (hfsm ▸ hf)]
    refine reading_related (h.fetchBits_eq 1) (fun v => ?_) h.haltPass ht
    cases firstBit v <;> constructor <;> simp_all
  | readLength =>
    rw [transition_of_readLength hf] at ht
    rw [transition_of_readLength (hfsm ▸ hf)]
    exact reading_related (h.fetchBits_eq 5) (fun v => by constructor <;> simp_all) h.haltPass ht
  | readTag =>
    rw [transition_of_readTag hf] at ht
    rw [transition_of_readTag (hfsm ▸ hf)]
    exact reading_related (h.fetchBits_eq 2) (fun v => by constructor <;> simp_all) h.haltPass ht
  | readData =>
    rw [transition_of_readData hf, stepReadData, hlen (.inr (.inl hf))] at ht
    rw [transition_of_readData (hfsm ▸ hf)]
    exact reading_related (h.fetchBits_eq _) (fun v => by constructor <;> simp_all) h.haltPass ht
  | emit =>
    rw [transition_emit hf] at ht
    cases ht
    exact ⟨_, transition_emit (hfsm ▸ hf), by constructor <;> simp_all [State.message]⟩
  | halted =>
    rw [transition_of_halted hf] at ht
    cases ht
    exact ⟨s', transition_of_halted (hfsm ▸ hf), h⟩

theorem State.SamePass.runLoop_related {s s' t : State} (h : s.SamePass s') {k : Nat} (ht : runLoop k s = .next t) :
    ∃ t', runLoop k s' = .next t' ∧ t.SamePass t' := by
  induction k using Nat.strong_induction_on generalizing s s' with
  | h k ih =>
    rcases runLoop_next ht with ⟨hf, rfl⟩ | ⟨j, u, rfl, hf, hu, ht⟩
    · exact ⟨s', runLoop_of_halted (h.fsm ▸ hf) _, h⟩
    · obtain ⟨u', hu', hsame⟩ := h.transition_related hu
      rw [runLoop_succ (h.fsm ▸ hf) hu']
      exact ih j (Nat.lt_succ_self j) hsame ht

/-- LOAD begins the same pass from any two states with the same parameters: it makes all three registers stale. -/
theorem loadBuffer_samePass {s s' : State} {raw : List Byte} (hcfg : s.cfg = s'.cfg) (hfit : raw.length ≤ s.cfg.bufBytes) :
    ∃ u u', loadBuffer raw s = .next u ∧ loadBuffer raw s' = .next u' ∧ u.SamePass u' := by
  refine ⟨_, _, if_neg (Nat.not_lt.mpr hfit), if_neg (Nat.not_lt.mpr (hcfg ▸ hfit)), ?_⟩
  constructor <;> simp [hcfg]

end Sys2Proof.Machine

/-- Settles O48: LOAD begins the same pass in both states, RUN completes it in the first, and the second follows. -/
theorem decodeDependsOnTheBufferAlone : Obligations.DecodeDependsOnTheBufferAlone := by
  unfold Obligations.DecodeDependsOnTheBufferAlone
  intro s s' raw hcfg hfit
  obtain ⟨u, u', hload, hload', hsame⟩ := loadBuffer_samePass hcfg hfit
  obtain ⟨t, ht⟩ := (loadBuffer_inv hload).runLoop_completes (Nat.lt_succ_of_le u.mu_le)
  obtain ⟨t', ht', hend⟩ := hsame.runLoop_related ht
  rw [hsame.bitLen_eq] at ht'
  refine ⟨t.succeed (.messages t.out), t'.succeed (.messages t'.out), ?_, ?_, ?_, hend.out, hend.nb, hend.blen, hend.cur,
    hend.fsm⟩
  · rw [exec, execDecode, hload, andThen_of_next, runPass_of_runLoop ht]
  · rw [exec, execDecode, hload', andThen_of_next, runPass_of_runLoop ht']
  · rw [State.succeed_answer, State.succeed_answer, hend.out]
end

section
/-! Proofs of the statement about a frame cut by the end of the buffer (44_frame_decoder.md: R153, R174). -/

open Sys2Proof Sys2Proof.Machine

namespace Sys2Proof.Machine

/-- The bits left are those ahead. -/
theorem State.Ahead.bitsLeft_eq {s : State} {v : List Bit} (h : s.Ahead v) : s.bitsLeft = v.length := by
  rw [State.bitsLeft, ← h.ends, Nat.add_sub_cancel_left]

/-- A beginning of `x ++ y` ends inside `x`, or has the whole of `x` and goes on in `y`. -/
theorem beginning_of_append {c r x y : List Bit} (h : c ++ r = x ++ y) :
    c.length < x.length ∨ ∃ d, c = x ++ d ∧ d ++ r = y := by
  rcases List.append_eq_append_iff.mp h with ⟨a, rfl, rfl⟩ | ⟨d, rfl, rfl⟩
  · cases a with
    | nil => exact .inr ⟨[], by simp, rfl⟩
    | cons b a => exact .inl (by simp)
  · exact .inr ⟨d, rfl, rfl⟩

/-- The pass ends in Halted after at most `n` transitions, and no message is appended to OUT on the way. -/
def State.EndsSilentlyWithin (s : State) (n : Nat) : Prop :=
  ∃ t, t.fsm = .halted ∧ t.out = s.out ∧ ∀ k, runLoop (k + n) s = .next t

theorem endsSilently_of_haltPass {s : State} (hf : s.fsm ≠ .halted) (ht : transition s = .next s.haltPass) (n : Nat) :
    s.EndsSilentlyWithin (n + 1) :=
  ⟨s.haltPass, rfl, rfl, fun k => by rw [← Nat.add_assoc, runLoop_succ hf ht, runLoop_of_halted rfl]⟩

theorem endsSilently_of_transition {s u : State} {n : Nat} (hf : s.fsm ≠ .halted) (ht : transition s = .next u)
    (hout : u.out = s.out) (h : u.EndsSilentlyWithin n) : s.EndsSilentlyWithin (n + 1) := by
  obtain ⟨t, htf, htout, hrun⟩ := h
  exact ⟨t, htf, htout.trans hout, fun k => by rw [← Nat.add_assoc, runLoop_succ hf ht, hrun]⟩

/-- Cut in the data. -/
theorem endsSilently_of_cut_data {s : State} {cut : List Bit} (hf : s.fsm = .readData) (h : s.Ahead cut)
    (hcut : cut.length < s.len.toNat) : s.EndsSilentlyWithin 1 :=
  endsSilently_of_haltPass (by simp [hf]) (transition_readData_ended hf (h.bitsLeft_eq ▸ hcut)) 0

/-- Cut in the tag, or after it. -/
theorem endsSilently_of_cut_tag {s : State} {m : Message} {cut rest : List Bit} (hf : s.fsm = .readTag) (hm : m.wf)
    (hlen : s.len = m.length) (h : s.Ahead cut) (hbits : cut ++ rest = bitsMsb 2 m.tag.toNat ++ m.data)
    (hrest : rest ≠ []) : s.EndsSilentlyWithin 2 := by
  rcases beginning_of_append hbits with hlt | ⟨d, rfl, hd⟩
  · exact endsSilently_of_haltPass (by simp [hf])
      (transition_readTag_ended hf (by rw [h.bitsLeft_eq]; simpa using hlt)) 1
  · refine endsSilently_of_transition (by simp [hf]) (transition_tag hf h) rfl
      (endsSilently_of_cut_data rfl (h.consume rfl rfl rfl (by simp)) ?_)
    calc d.length < (d ++ rest).length := by simpa using List.length_pos_of_ne_nil hrest
      _ = s.len.toNat := by rw [hd, hlen]; exact hm

/-- Cut in the length, or after it. -/
theorem endsSilently_of_cut_length {s : State} {m : Message} {cut rest : List Bit} (hf : s.fsm = .readLength)
    (hm : m.wf) (h : s.Ahead cut)
    (hbits : cut ++ rest = bitsLsb 5 m.length.toNat ++ (bitsMsb 2 m.tag.toNat ++ m.data)) (hrest : rest ≠ []) :
    s.EndsSilentlyWithin 3 := by
  rcases beginning_of_append hbits with hlt | ⟨d, rfl, hd⟩
  · exact endsSilently_of_haltPass (by simp [hf])
      (transition_readLength_ended hf (by rw [h.bitsLeft_eq]; simpa using hlt)) 2
  · exact endsSilently_of_transition (by simp [hf]) (transition_length hf h) rfl
      (endsSilently_of_cut_tag rfl hm rfl (h.consume rfl rfl rfl (by simp)) hd hrest)

/-- R153: a scanning decoder that has a proper non-empty beginning of a frame ahead, and nothing after it, ends the
pass without a message. -/
theorem endsSilently_of_cut_frame {s : State} {m : Message} {cut rest : List Bit} (hf : s.fsm = .scanning)
    (hm : m.wf) (h : s.Ahead cut) (hbits : m.bits = cut ++ rest) (hcut : cut ≠ []) (hrest : rest ≠ []) :
    s.EndsSilentlyWithin 4 := by
  obtain ⟨b, c, rfl⟩ := List.exists_cons_of_ne_nil hcut
  obtain ⟨rfl, hc⟩ := List.cons.inj hbits
  exact endsSilently_of_transition (by simp [hf]) (transition_marker hf h) rfl
    (endsSilently_of_cut_length rfl hm (h.consume (v := [true]) rfl rfl rfl rfl) hc.symm hrest)

/-- RUN over whole frames, padding, and a frame cut by the end of the stream. -/
theorem runPass_cut_frame {items : List (Nat × Message)} (hwf : ∀ x ∈ items, x.2.wf) {s : State} {p : Nat} {m : Message}
    {cut rest : List Bit} (hf : s.fsm = .scanning) (hm : m.wf) (hbits : m.bits = cut ++ rest) (hcut : cut ≠ [])
    (hrest : rest ≠ []) (h : s.Ahead (layout items ++ (List.replicate p false ++ cut))) :
    ∃ t, runPass s = .next t ∧ t.out = s.out ++ items.map (·.2) ∧ t.answer = some (.success (.messages t.out)) ∧
      t.fsm = .halted := by
  obtain ⟨n, u, hn, hlayout, huf, huout, hu⟩ := runLoop_layout hwf hf h
  obtain ⟨t, htf, htout, hend⟩ := endsSilently_of_cut_frame (s := u.advance p) huf hm
    (hu.consume rfl rfl rfl (by simp)) hbits hcut hrest
  obtain ⟨k, hk⟩ : ∃ k, 5 * s.bitLen + 5 = k + 4 + p + n := by
    have he := h.ends
    simp only [List.length_append, List.length_replicate] at he
    exact ⟨5 * s.bitLen + 5 - (4 + p + n), by omega⟩
  have hloop : runLoop (5 * s.bitLen + 5) s = .next t := by
    rw [hk, hlayout, runLoop_padding p huf hu, hend]
  exact ⟨_, runPass_of_runLoop hloop, htout.trans huout, rfl, htf⟩

end Sys2Proof.Machine

/-- Settles O50: after the whole frames and the padding the cut frame takes the decoder to Halted, wherever the cut. -/
theorem truncatedFrameIsDroppedSilently : Obligations.TruncatedFrameIsDroppedSilently := by
  unfold Obligations.TruncatedFrameIsDroppedSilently
  intro s raw items p m cut rest hfit hwf hm hbits hcut hrest hstream
  obtain ⟨u, hload, hscan, hempty, -, hahead⟩ := loadBuffer_ahead hfit
  rw [hstream] at hahead
  obtain ⟨t, hrun, hout, hanswer, hhalted⟩ := runPass_cut_frame hwf hscan hm hbits hcut hrest hahead
  rw [hempty, List.nil_append] at hout
  exact ⟨t, by rw [exec, execDecode, hload, andThen_of_next, hrun], hout, hout ▸ hanswer, hhalted⟩
end

section
/-! What an operation that begins no new pass is made of, and the invariant of 10_state.md section 4 (R34): the
statements about whole passes (R23, R28, R57, R63, R147). -/

open Sys2Proof Sys2Proof.Machine

namespace Sys2Proof.Machine

/-! ### The pieces of an operation within a pass -/

/-- One piece of an operation that loads no buffer: an answer, a read that finds its bits, or a transition. -/
inductive Piece : State → State → Prop where
  | answer (s : State) (a : Answer) : Piece s { s with answer := some a }
  | read (s : State) {n : Nat} (hn : n ≤ s.bitsLeft) : Piece s (s.advance n)
  | transition {s t : State} (ht : transition s = .next t) : Piece s t

/-- `t` is reached from `s` by pieces of operations that load no buffer. -/
abbrev WithinPass : State → State → Prop := Relation.ReflTransGen Piece

theorem WithinPass.succeed {s t : State} (h : WithinPass s t) (r : Result) : WithinPass s (t.succeed r) :=
  h.tail (.answer t (.success r))

theorem withinPass_succeed (s : State) (r : Result) : WithinPass s (s.succeed r) :=
  .single (.answer s (.success r))

theorem withinPass_raise (s : State) (st : Status) : WithinPass s (s.raise st) :=
  .single (.answer s (.failure st))

theorem withinPass_transition {s t : State} (h : transition s = .next t) : WithinPass s t :=
  .single (.transition h)

/-- Everything one of the three consuming reads can do. -/
theorem withinPass_reading {s t : State} {n : Nat} {r : List Bit → Result} {st : Status}
    (h : reading s n (fun v => (s.advance n).succeed (r v)) (s.raise st) = .next t) : WithinPass s t := by
  rcases reading_next h with ⟨v, -, hn, -, -, rfl⟩ | ⟨-, rfl⟩
  · exact WithinPass.succeed (.single (.read s hn)) (r v)
  · exact withinPass_raise s st

theorem withinPass_peekbit {s t : State} (h : exec .peekbit s = .next t) : WithinPass s t := by
  rcases reading_next h with ⟨v, -, -, -, -, rfl⟩ | ⟨-, rfl⟩
  · exact withinPass_succeed s _
  · exact withinPass_raise s _

theorem withinPass_stepOnce {s t : State} (h : stepOnce s = .next t) : WithinPass s t := by
  obtain ⟨u, hu, rfl⟩ := stepOnce_next h
  exact (withinPass_transition hu).succeed _

theorem withinPass_stepTimes {k : Nat} {s t : State} (h : stepTimes k s = .next t) : WithinPass s t := by
  induction k generalizing s with
  | zero => cases h; exact .refl
  | succ k ih =>
    obtain ⟨u, hu, h⟩ := andThen_next h
    exact (withinPass_stepOnce hu).trans (ih h)

theorem withinPass_runLoop {k : Nat} {s t : State} (h : runLoop k s = .next t) : WithinPass s t ∧ t.fsm = .halted :=
  runLoop_induction (WithinPass s) (fun _ _ hs ht => hs.tail (.transition ht)) k s t .refl h

theorem withinPass_runPass {s t : State} (h : runPass s = .next t) : WithinPass s t := by
  obtain ⟨u, hu, rfl⟩ := runPass_next h
  exact (withinPass_runLoop hu).1.succeed _

theorem execEnccmd_next {address : Nat} {payload : Byte} {s t : State} (h : execEnccmd address payload s = .next t) :
    (3 < address ∧ t = s.raise .invalidArgument) ∨
    (address ≤ 3 ∧ t = s.succeed (.wire (reverse8 (commandByte address)) (reverse8 payload))) := by
  unfold execEnccmd at h
  split at h <;> cases h
  · exact .inl ⟨by assumption, rfl⟩
  · exact .inr ⟨by omega, rfl⟩

/-- Where FRAME runs, it is five STEPs from a scanning decoder (log 13). -/
theorem execFrame_next {length : BitVec 5} {tag : BitVec 2} {data : List Bit} {s t : State}
    (h : execFrame length tag data s = .next t) : s.fsm = .scanning ∧ stepTimes 5 s = .next t := by
  unfold execFrame at h
  split at h
  · rename_i hc
    exact ⟨(of_decide_eq_true hc.1).1, h⟩
  · cases h

/-- Where PADDING runs, it is one STEP from a scanning decoder (log 13). -/
theorem execPadding_next {s t : State} (h : execPadding s = .next t) :
    s.fsm = .scanning ∧ stepTimes 1 s = .next t := by
  unfold execPadding at h
  split at h
  · rename_i hc
    exact ⟨(of_decide_eq_true hc).1, h⟩
  · cases h

/-- Every operation but LOAD and DECODE is made of answers, reads and transitions. -/
theorem exec_withinPass {i : Instr} {s t : State} (h : exec i s = .next t) (hpass : startsPass i = false) :
    WithinPass s t := by
  cases i with
  | rev8 b => cases h; exact withinPass_succeed s _
  | enccmd address payload =>
    rcases execEnccmd_next h with ⟨-, rfl⟩ | ⟨-, rfl⟩
    · exact withinPass_raise s _
    · exact withinPass_succeed s _
  | load raw => cases hpass
  | peekbit => exact withinPass_peekbit h
  | nextbit => exact withinPass_reading (r := fun v => .bit (firstBit v)) h
  | readraw n => exact withinPass_reading (r := .bits) h
  | readrev n => exact withinPass_reading (r := fun v => .number (natLsb v)) h
  | step => exact withinPass_stepOnce h
  | run => exact withinPass_runPass h
  | reserved9 | reservedA | reservedB | reservedC | reservedD | reservedE | reservedF => cases h
  | decode raw => cases hpass
  | cmdFrameB1B2 address payload => cases h; exact withinPass_succeed s _
  | cmdFrameW0W1 address payload => cases h; exact withinPass_succeed s _
  | frame length tag data => exact withinPass_stepTimes (execFrame_next h).2
  | padding => exact withinPass_stepTimes (execPadding_next h).2

theorem exists_buffer_of_startsPass {i : Instr} (h : startsPass i = true) : ∃ raw, i = .load raw ∨ i = .decode raw := by
  cases i with
  | load raw => exact ⟨raw, .inl rfl⟩
  | decode raw => exact ⟨raw, .inr rfl⟩
  | _ => cases h

/-- LOAD and DECODE are LOAD's shared operation and what follows it within the pass. -/
theorem exec_loading_next {raw : List Byte} {i : Instr} {s t : State} (hi : i = .load raw ∨ i = .decode raw)
    (h : exec i s = .next t) : ∃ u, loadBuffer raw s = .next u ∧ WithinPass u t := by
  rcases hi with rfl | rfl
  · exact ⟨t, h, .refl⟩
  · obtain ⟨u, hload, hrun⟩ := andThen_next h
    exact ⟨u, hload, withinPass_runPass hrun⟩

/-! ### What no piece changes, and what each only moves forward -/

/-- No transition moves the cursor back or takes a message out of OUT. -/
theorem transition_forward {s t : State} (h : transition s = .next t) : s.cur ≤ t.cur ∧ s.out <+: t.out := by
  rcases transition_next h with ⟨-, -, rfl⟩ | ⟨v, -, -, -, rfl⟩ | ⟨-, -, rfl⟩ | ⟨v, -, -, -, rfl⟩ | ⟨-, -, rfl⟩ |
    ⟨v, -, -, -, rfl⟩ | ⟨-, -, rfl⟩ | ⟨v, -, -, -, -, rfl⟩ | ⟨-, rfl⟩ | ⟨-, rfl⟩
  case inr.inl => cases v <;> simp
  all_goals simp

theorem WithinPass.same_buffer {s t : State} (h : WithinPass s t) :
    t.cfg = s.cfg ∧ t.nb = s.nb ∧ t.blen = s.blen ∧ t.pending = s.pending := by
  induction h with
  | refl => exact ⟨rfl, rfl, rfl, rfl⟩
  | tail _ hpiece ih =>
    cases hpiece with
    | answer | read => exact ih
    | transition ht =>
      obtain ⟨hcfg, hnb, hblen, hpending, -⟩ := transition_frame ht
      rwa [hcfg, hnb, hblen, hpending]

theorem WithinPass.forward {s t : State} (h : WithinPass s t) : s.cur ≤ t.cur ∧ s.out <+: t.out := by
  induction h with
  | refl => exact ⟨le_rfl, [], List.append_nil _⟩
  | tail _ hpiece ih =>
    obtain ⟨hcur, hout⟩ := ih
    cases hpiece with
    | answer => exact ⟨hcur, hout⟩
    | read => exact ⟨Nat.le_add_right_of_le hcur, hout⟩
    | transition ht =>
      obtain ⟨hcur', hout'⟩ := transition_forward ht
      exact ⟨hcur.trans hcur', hout.trans hout'⟩

/-- A halted decoder stays halted and emits nothing. -/
theorem WithinPass.halted {s t : State} (h : WithinPass s t) (hf : s.fsm = .halted) :
    t.fsm = .halted ∧ t.out = s.out := by
  induction h with
  | refl => exact ⟨hf, rfl⟩
  | tail _ hpiece ih =>
    cases hpiece with
    | answer | read => exact ih
    | transition ht =>
      rw [transition_of_halted ih.1] at ht
      cases ht
      exact ih

theorem WithinPass.streamBit_eq {s t : State} (h : WithinPass s t) (a : Nat) : t.streamBit a = s.streamBit a := by
  obtain ⟨hcfg, hnb, -, -⟩ := h.same_buffer
  rw [State.streamBit, State.streamBit, hcfg, hnb]

/-! ### The invariant -/

/-- The invariant says nothing of the answer and the queue. -/
theorem State.Inv.with_host {s : State} (h : s.Inv) (q : List Request) (a : Option Answer) :
    State.Inv { s with pending := q, answer := a } :=
  h.of_same_buffer rfl rfl rfl h.cursorInStream h.messagesPaidFor h.messagesWf h.emitWf

theorem WithinPass.inv {s t : State} (h : WithinPass s t) (hs : s.Inv) : t.Inv := by
  induction h with
  | refl => exact hs
  | tail _ hpiece ih =>
    cases hpiece with
    | answer a => exact ih.with_host _ (some a)
    | read hn => exact ih.of_read hn rfl rfl rfl rfl rfl (Nat.le_add_right _ _) ih.emitWf
    | transition ht => exact ih.transition_inv ht

theorem State.Inv.exec_inv {i : Instr} {s t : State} (hs : s.Inv) (h : exec i s = .next t) : t.Inv := by
  cases hpass : startsPass i with
  | false => exact (exec_withinPass h hpass).inv hs
  | true =>
    obtain ⟨raw, hi⟩ := exists_buffer_of_startsPass hpass
    obtain ⟨u, hload, hrest⟩ := exec_loading_next hi h
    exact hrest.inv (loadBuffer_inv hload)

/-- Everything a step can do when it answers a next state: idle, or the execution of the oldest request. -/
theorem step_next {s t : State} (h : step s = .next t) :
    (s.pending = [] ∧ t = s) ∨
    ∃ r q i, s.pending = r :: q ∧ decode r = .ok i ∧ exec i { s with pending := q } = .next t := by
  unfold step at h
  split at h
  · rename_i hp
    cases h
    exact .inl ⟨hp, rfl⟩
  · rename_i r q hp
    split at h
    · rename_i i hi
      exact .inr ⟨r, q, i, hp, hi, h⟩
    · cases h

theorem State.Inv.step_inv {s t : State} (hs : s.Inv) (h : step s = .next t) : t.Inv := by
  rcases step_next h with ⟨-, rfl⟩ | ⟨r, q, i, -, -, h⟩
  · exact hs
  · exact (hs.with_host q s.answer).exec_inv h

theorem resetWith_inv (c : Config) : (State.resetWith c).Inv where
  bufferFits := Nat.zero_le _
  memoryWf := Memory.wf_reset c
  validEntries _ := by simp [State.resetWith]
  cursorInStream := le_rfl
  messagesPaidFor := le_rfl
  messagesWf := by simp [State.resetWith]
  emitWf := nofun

theorem Reachable.inv {c : Config} {s : State} (h : Reachable c s) : s.Inv := by
  induction h with
  | reset => exact resetWith_inv c
  | request r _ ih => exact ih.with_host _ _
  | step _ ht ih => exact ih.step_inv ht

/-- R34.5: eight bits of the stream stand behind each message. -/
theorem State.Inv.out_length_le {s : State} (h : s.Inv) : s.out.length ≤ s.blen := by
  have hpaid := h.messagesPaidFor
  have hcur := h.cursorInStream
  rw [State.bitLen] at hcur
  omega

end Sys2Proof.Machine

/-- Settles O4: what each piece of an operation keeps, every operation and so every step keeps. -/
theorem everyStepKeepsTheInvariant : Obligations.EveryStepKeepsTheInvariant := by
  unfold Obligations.EveryStepKeepsTheInvariant
  exact fun _ _ hs h => hs.step_inv h

/-- Settles O3. -/
theorem resetMeetsTheInvariant : Obligations.ResetMeetsTheInvariant := by
  unfold Obligations.ResetMeetsTheInvariant
  exact resetWith_inv

/-- Settles O6: no piece of an operation within a pass goes back. -/
theorem nothingGoesBackWithinAPass : Obligations.NothingGoesBackWithinAPass := by
  unfold Obligations.NothingGoesBackWithinAPass
  intro i s t h hpass
  have hwithin := exec_withinPass h hpass
  obtain ⟨-, hnb, hblen, -⟩ := hwithin.same_buffer
  obtain ⟨hcur, new, hnew⟩ := hwithin.forward
  exact ⟨hcur, ⟨by rw [State.bitLen, State.bitLen, hblen], fun j => by rw [hnb], hwithin.streamBit_eq⟩, new, hnew.symm⟩

/-- Settles O7: no piece of an operation within a pass leaves Halted. -/
theorem onlyLoadLeavesHalted : Obligations.OnlyLoadLeavesHalted := by
  unfold Obligations.OnlyLoadLeavesHalted
  intro i s t h hf hpass
  have hwithin := exec_withinPass h hpass
  obtain ⟨hhalted, hout⟩ := hwithin.halted hf
  exact ⟨hhalted, hwithin.forward.1, hout⟩

/-- Settles O5: the invariant holds of every reachable state, and the rest is what an operation within a pass keeps. -/
theorem reachableStatesMeetTheNineInvariants : Obligations.ReachableStatesMeetTheNineInvariants := by
  unfold Obligations.ReachableStatesMeetTheNineInvariants
  intro c s hreach
  have hs := hreach.inv
  refine ⟨hs.bufferFits, rfl, hs.cursorInStream, hs.out_length_le, fun m hm => ?_, hs.emitWf, fun i t h hpass => ?_⟩
  · exact ⟨Nat.le_of_lt_succ m.tag.isLt, Nat.le_of_lt_succ m.length.isLt, hs.messagesWf m hm⟩
  · have hwithin := exec_withinPass h hpass
    obtain ⟨-, hnb, hblen, -⟩ := hwithin.same_buffer
    obtain ⟨hcur, new, hnew⟩ := hwithin.forward
    exact ⟨hcur, ⟨hnb, hblen⟩, ⟨new, hnew.symm⟩, fun hf => (hwithin.halted hf).1⟩

/-- Settles O59: the cursor is at most the length of the stream, and CW is the size of the greatest length. -/
theorem cursorFitsItsRegister : Obligations.CursorFitsItsRegister := by
  unfold Obligations.CursorFitsItsRegister
  refine ⟨fun s hs => ?_, fun c w => Nat.size_le.symm, by decide +kernel⟩
  calc s.cur ≤ 8 * s.blen := hs.cursorInStream
    _ ≤ 8 * s.cfg.bufBytes := Nat.mul_le_mul_left 8 hs.bufferFits
    _ < 2 ^ s.cfg.cursorWidth := Nat.lt_size_self _
end

section
/-! Proofs of the statements about requests, codes and packed words (00_scope.md R7, R8; 30_encoding.md R71 to R88). -/

open Sys2Proof Sys2Proof.Machine

namespace Sys2Proof.Machine

/-! ### The buffer on the ports of LOAD and DECODE (R81, R87) -/

theorem readBuffer_map_eq_ok {m : Nat} {raw : List Byte} {f : List Byte → Instr} {i : Instr} :
    (readBuffer m raw).map f = .ok i ↔ raw.length = m ∧ f raw = i := by
  unfold readBuffer
  split <;> simp_all [Except.map]

/-! ### The select codes (R80) -/

theorem select_code_cases (code : BitVec 4) :
    code = 0x0 ∨ code = 0x1 ∨ code = 0x2 ∨ code = 0x3 ∨ code = 0x4 ∨ code = 0x5 ∨ code = 0x6 ∨ code = 0x7 ∨
    code = 0x8 ∨ code = 0x9 ∨ code = 0xA ∨ code = 0xB ∨ code = 0xC ∨ code = 0xD ∨ code = 0xE ∨ code = 0xF := by
  revert code; decide

/-- A request by select code whose unread ports are zero is the one the encoder writes. -/
theorem encode_of_decodeOp {code : BitVec 4} {p : Ports} {i : Instr} (h : decodeOp code p = .ok i)
    (hc : (Request.opsel code p).canonical = true) : encode i = .opsel code p := by
  rcases select_code_cases code with rfl | rfl | rfl | rfl | rfl | rfl | rfl | rfl | rfl | rfl | rfl | rfl | rfl | rfl |
    rfl | rfl
  case inr.inr.inl =>
    obtain ⟨hm, rfl⟩ := readBuffer_map_eq_ok.mp h
    rw [encode, hm]
    exact congrArg (Request.opsel _) (of_decide_eq_true hc).symm
  all_goals
    cases h
    exact congrArg (Request.opsel _) (of_decide_eq_true hc).symm

/-! ### The command frame (R71) -/

/-- The constant bits of CMDFRAME.b1b2 and the two fields make up the word. -/
theorem commandWordB1B2_of_constant_bits {w : BitVec 16} (h : w &&& 0x3F00#16 = 0x1100#16) :
    commandWordB1B2 (w.extractLsb' 14 2) (w.extractLsb' 0 8) = w := by
  have hconst : w.extractLsb' 8 6 = 0b010001#6 := by
    calc w.extractLsb' 8 6 = w.extractLsb' 8 6 &&& BitVec.allOnes 6 := BitVec.and_allOnes.symm
      _ = (w &&& 0x3F00#16).extractLsb' 8 6 := (BitVec.extractLsb'_and (y := 0x3F00#16)).symm
      _ = 0b010001#6 := by rw [h]; rfl
  rw [commandWordB1B2, ← hconst,
    BitVec.extractLsb'_append_extractLsb'_eq_extractLsb' (start₂ := 14) (start₁ := 8) rfl]
  exact BitVec.extractLsb'_append_extractLsb'

theorem ofBool_getLsbD_eq_extractLsb' {n : Nat} (w : BitVec n) (k : Nat) :
    BitVec.ofBool (w.getLsbD k) = w.extractLsb' k 1 := by
  refine BitVec.eq_of_getLsbD_eq fun i hi => ?_
  obtain rfl : i = 0 := by omega
  simp

theorem getLsbD_ofBool_append_ofBool (b c : Bit) : (BitVec.ofBool b ++ BitVec.ofBool c).getLsbD 0 = c ∧
    (BitVec.ofBool b ++ BitVec.ofBool c).getLsbD 1 = b := by
  revert b c; decide

/-- The constant bits of CMDFRAME.w0w1, the reversed address and the reversed payload make up the word. -/
theorem commandWordW0W1_of_constant_bits {w : BitVec 16} (h : w &&& 0xFC00#16 = 0x8800#16) :
    commandWordW0W1 (BitVec.ofBool (w.getLsbD 8) ++ BitVec.ofBool (w.getLsbD 9)) (reverse8 (w.extractLsb' 0 8)) =
      w := by
  have hconst : w.extractLsb' 10 6 = 0b100010#6 := by
    calc w.extractLsb' 10 6 = w.extractLsb' 10 6 &&& BitVec.allOnes 6 := BitVec.and_allOnes.symm
      _ = (w &&& 0xFC00#16).extractLsb' 10 6 := (BitVec.extractLsb'_and (y := 0xFC00#16)).symm
      _ = 0b100010#6 := by rw [h]; rfl
  obtain ⟨hbit0, hbit1⟩ := getLsbD_ofBool_append_ofBool (w.getLsbD 8) (w.getLsbD 9)
  rw [commandWordW0W1, hbit0, hbit1, reverse8_reverse8, ofBool_getLsbD_eq_extractLsb',
    ofBool_getLsbD_eq_extractLsb', ← hconst,
    BitVec.extractLsb'_append_extractLsb'_eq_extractLsb' (start₂ := 10) (start₁ := 9) rfl,
    BitVec.extractLsb'_append_extractLsb'_eq_extractLsb' (start₂ := 9) (start₁ := 8) rfl]
  exact BitVec.extractLsb'_append_extractLsb'

theorem encode_of_decodeCommandFrame {w : BitVec 16} {i : Instr} (h : decodeCommandFrame w = .ok i) :
    encode i = .commandFrame w := by
  unfold decodeCommandFrame at h
  split at h
  · rename_i hw
    cases h
    exact congrArg Request.commandFrame (commandWordB1B2_of_constant_bits hw)
  · split at h
    · rename_i hw
      cases h
      exact congrArg Request.commandFrame (commandWordW0W1_of_constant_bits hw)
    · cases h

/-! ### The items of the stream (R74, R79) -/

theorem bitsLsb_ofNat_natLsb {n : Nat} {v : List Bit} (h : v.length = n) :
    bitsLsb n (BitVec.ofNat n (natLsb v)).toNat = v := by
  subst h
  rw [BitVec.toNat_ofNat, Nat.mod_eq_of_lt (natLsb_lt v), bitsLsb_natLsb]

theorem bitsMsb_ofNat_natMsb {n : Nat} {v : List Bit} (h : v.length = n) :
    bitsMsb n (BitVec.ofNat n (natMsb v)).toNat = v := by
  subst h
  rw [BitVec.toNat_ofNat, Nat.mod_eq_of_lt (natMsb_lt v), bitsMsb_natMsb]

/-- The message whose frame has the bits `w` after its marker: length, tag and data in stream order (R74 to R76). -/
def Message.ofFields (w : List Bit) : Message where
  tag    := BitVec.ofNat 2 (natMsb ((w.drop 5).take 2))
  length := BitVec.ofNat 5 (natLsb (w.take 5))
  data   := (w.drop 7).take (natLsb (w.take 5))

/-- A marker and the bits after it are the frame of the message in them and what follows. -/
theorem Message.bits_ofFields_append {w : List Bit} (h : 7 + natLsb (w.take 5) ≤ w.length) :
    (Message.ofFields w).bits ++ (w.drop 7).drop (natLsb (w.take 5)) = true :: w := by
  have hlength : bitsLsb 5 (Message.ofFields w).length.toNat = w.take 5 :=
    bitsLsb_ofNat_natLsb (by rw [List.length_take]; omega)
  have htag : bitsMsb 2 (Message.ofFields w).tag.toNat = (w.drop 5).take 2 :=
    bitsMsb_ofNat_natMsb (by rw [List.length_take, List.length_drop]; omega)
  have hrest : w.drop 7 = (w.drop 5).drop 2 := (List.drop_drop (i := 2) (j := 5)).symm
  rw [Message.bits, frameBits, hlength, htag, Message.ofFields]
  simp only [List.cons_append, List.append_assoc, List.take_append_drop]
  rw [hrest, List.take_append_drop, List.take_append_drop]

/-- What `decodeItem` takes off the front of a sequence is what the encoder writes for the item. -/
theorem encode_of_decodeItem {bits rest : List Bit} {i : Instr} (h : decodeItem bits = .ok (i, rest)) :
    ∃ item, encode i = .streamItem item ∧ bits = item ++ rest := by
  match bits with
  | [] => cases h
  | false :: w => cases h; exact ⟨[false], rfl, rfl⟩
  | true :: w =>
    simp only [decodeItem, List.length_drop] at h
    split at h
    · cases h
    · split at h
      · cases h
      · split at h
        · cases h
        · cases h
          exact ⟨_, rfl, (Message.bits_ofFields_append (by omega)).symm⟩

theorem encode_of_decodeWholeItem {bits : List Bit} {i : Instr} (h : decodeWholeItem bits = .ok i) :
    encode i = .streamItem bits := by
  unfold decodeWholeItem at h
  split at h
  · rename_i j hj
    cases h
    obtain ⟨item, hitem, rfl⟩ := encode_of_decodeItem hj
    rw [hitem, List.append_nil]
  · cases h
  · cases h

/-! ### Packed words (R88) -/

/-- A sequence of at most 31 bits fits its word. -/
theorem toNat_packBits {v : List Bit} (h : v.length ≤ 31) : (packBits v).toNat = natMsb v := by
  have hlt : natMsb v < 2 ^ 31 := (natMsb_lt v).trans_le (Nat.pow_le_pow_right (by decide) h)
  rw [packBits, BitVec.toNat_ofNat, Nat.mod_eq_of_lt hlt]

theorem unpackBits_packBits {v : List Bit} (h : v.length ≤ 31) : unpackBits v.length (packBits v) = v := by
  rw [unpackBits, toNat_packBits h, bitsMsb_natMsb]

theorem Message.wf.length_le {m : Message} (h : m.wf) : m.data.length ≤ 31 :=
  h ▸ Nat.le_of_lt_succ m.length.isLt

theorem packMessage_tag (m : Message) : (packMessage m).extractLsb' 36 2 = m.tag :=
  calc (packMessage m).extractLsb' 36 2 = (m.tag ++ m.length).extractLsb' 5 2 :=
        BitVec.extractLsb'_append_eq_of_le (by decide)
    _ = m.tag := BitVec.extractLsb'_append_eq_left

theorem packMessage_length (m : Message) : (packMessage m).extractLsb' 31 5 = m.length :=
  calc (packMessage m).extractLsb' 31 5 = (m.tag ++ m.length).extractLsb' 0 5 :=
        BitVec.extractLsb'_append_eq_of_le (by decide)
    _ = m.length := BitVec.extractLsb'_append_eq_right

theorem packMessage_data (m : Message) : (packMessage m).extractLsb' 0 31 = packBits m.data :=
  BitVec.extractLsb'_append_eq_right

theorem unpackMessage_packMessage {m : Message} (h : m.wf) : unpackMessage (packMessage m) = m := by
  rw [unpackMessage, packMessage_tag, packMessage_length, packMessage_data, ← h, unpackBits_packBits h.length_le]

end Sys2Proof.Machine

/-- Settles O11, one row after another. -/
theorem decodeOfEncodeIsTheInstruction : Obligations.DecodeOfEncodeIsTheInstruction := by
  unfold Obligations.DecodeOfEncodeIsTheInstruction
  intro c i
  cases i with
  | load raw => exact Laws.RoundTrip.load raw c
  | decode raw => exact Laws.RoundTrip.decode raw c
  | cmdFrameB1B2 address payload => exact Laws.RoundTrip.cmdFrameB1B2 address payload c
  | cmdFrameW0W1 address payload => exact Laws.RoundTrip.cmdFrameW0W1 address payload c
  | frame length tag data => exact Laws.RoundTrip.frame length tag data c
  | _ => exact fun _ => rfl

/-- Settles O12, one form of request after another. -/
theorem encodeOfDecodeIsTheRequest : Obligations.EncodeOfDecodeIsTheRequest := by
  unfold Obligations.EncodeOfDecodeIsTheRequest
  intro r i h hc
  cases r with
  | opsel code p => exact encode_of_decodeOp h hc
  | pseudo m raw =>
    obtain ⟨rfl, rfl⟩ := readBuffer_map_eq_ok.mp h
    rfl
  | commandFrame w => exact encode_of_decodeCommandFrame h
  | streamItem bits => exact encode_of_decodeWholeItem h

/-- Settles O10. -/
theorem stepExecutesTheOldestRequest : Obligations.StepExecutesTheOldestRequest := by
  unfold Obligations.StepExecutesTheOldestRequest
  refine fun s => ⟨fun r q i hp hd => step_of_decode hp hd, fun r q e hp hd => ?_, fun hp => ?_⟩
  · simp only [step, hp, hd]
  · simp only [step, hp]

/-- Settles O13, each word by evaluation. -/
theorem tableWordsDecode : Obligations.TableWordsDecode := by
  unfold Obligations.TableWordsDecode
  exact ⟨rfl, rfl, rfl, rfl, rfl, rfl, rfl, rfl, rfl, rfl⟩

/-- Settles O15: the codes of the six states are the six values below 6. -/
theorem fsmCodesAreOneToOne : Obligations.FsmCodesAreOneToOne := by
  unfold Obligations.FsmCodesAreOneToOne
  refine ⟨by decide, fun c f => ?_, fun f => ?_⟩
  · revert c
    cases f <;> decide
  · cases f <;> decide

/-- Settles O17: the fields of the packed word are the message's, and its data bits unpack at their length. -/
theorem packedMessagesUnpack : Obligations.PackedMessagesUnpack := by
  unfold Obligations.PackedMessagesUnpack
  refine ⟨fun m hm => unpackMessage_packMessage hm, fun m hm => ⟨packMessage_tag m, packMessage_length m, ?_⟩,
    fun v hv => ⟨unpackBits_packBits hv, fun i hi => ?_⟩, by decide +kernel⟩
  · rw [packMessage_data, toNat_packBits hm.length_le]
  · have hlt : (packBits v).toNat < 2 ^ i :=
      toNat_packBits hv ▸ (natMsb_lt v).trans_le (Nat.pow_le_pow_right (by decide) hi)
    rw [BitVec.getLsbD, Nat.testBit_lt_two_pow hlt]

/-- Settles O20, entry by entry. -/
theorem rev8TableIsTheWiring : Obligations.Rev8TableIsTheWiring := by
  unfold Obligations.Rev8TableIsTheWiring
  exact ⟨by decide +kernel, by decide +kernel⟩
end

section
/-! Proofs of the statements about what LOAD leaves and the stream after it (20_memory.md, 43_bitstream_reader.md:
R52, R53, R85, R120), about reset (R36, R190, R191) and about what LOAD and DECODE write. -/

open Sys2Proof Sys2Proof.Machine

namespace Sys2Proof.Machine

/-! ### The two cases of LOAD -/

/-- The state LOAD leaves (R120). -/
def State.loaded (s : State) (raw : List Byte) : State :=
  { s with
    nb := Memory.writeAll [] 0 (raw.map reverse8), blen := raw.length, cur := 0, fsm := .scanning, out := [],
    answer := some (.success .nothing) }

theorem loadBuffer_of_le {raw : List Byte} {s : State} (hfit : raw.length ≤ s.cfg.bufBytes) :
    loadBuffer raw s = .next (s.loaded raw) :=
  if_neg (Nat.not_lt.mpr hfit)

/-- R85, D14. -/
theorem loadBuffer_of_lt {raw : List Byte} {s : State} (hlarge : s.cfg.bufBytes < raw.length) :
    loadBuffer raw s = .refused (.loadTooLong raw.length) :=
  if_pos hlarge

theorem execDecode_of_lt {raw : List Byte} {s : State} (hlarge : s.cfg.bufBytes < raw.length) :
    execDecode raw s = .refused (.loadTooLong raw.length) := by
  rw [execDecode, loadBuffer_of_lt hlarge, andThen]

theorem read_normalised (raw : List Byte) (j : Nat) :
    (Memory.writeAll [] 0 (raw.map reverse8)).read j = (raw[j]?).map reverse8 := by
  rw [Memory.read_loaded, List.getElem?_map]

/-! ### The stream after LOAD -/

theorem State.streamBit_of_read {s : State} {j k : Nat} {b : Byte} (hread : s.nb.read j = some b) (hk : k < 8) :
    s.streamBit (8 * j + k) = .ok (byteBit s.cfg.msbFirstOfReversed b k) := by
  simp only [State.streamBit, show (8 * j + k) / 8 = j by omega, show (8 * j + k) % 8 = k by omega, hread]

/-- Each stream bit after LOAD, under either reading of the bit order (R53, U11). -/
theorem streamBit_of_loadBuffer {raw : List Byte} {s t : State} {j k : Nat} {b : Byte} (h : loadBuffer raw s = .next t)
    (hj : raw[j]? = some b) (hk : k ≤ 7) : t.streamBit (8 * j + k) =
      .ok (if s.cfg.msbFirstOfReversed then b.getLsbD k else b.getLsbD (7 - k)) := by
  obtain ⟨-, rfl⟩ := loadBuffer_next h
  have hread : (Memory.writeAll [] 0 (raw.map reverse8)).read j = some (reverse8 b) := by
    rw [read_normalised, hj, Option.map_some]
  rw [State.streamBit_of_read hread (by omega), byteBit_reverse8 _ _ (by omega)]
  rfl

/-- LOAD leaves the cursor at address 0 with the whole stream of the buffer ahead. -/
theorem loadBuffer_next_ahead {raw : List Byte} {s t : State} (h : loadBuffer raw s = .next t) :
    t.cur = 0 ∧ t.Ahead (rawStream s.cfg.msbFirstOfReversed raw) := by
  obtain ⟨hfit, rfl⟩ := loadBuffer_next h
  obtain ⟨t, ht, -, -, -, hahead⟩ := loadBuffer_ahead hfit
  rw [loadBuffer_of_le hfit] at ht
  cases ht
  exact ⟨rfl, hahead⟩

/-- The buffer after LOAD and after DECODE (R120, R149). -/
theorem exec_loading_buffer {raw : List Byte} {i : Instr} {s t : State} (hi : i = .load raw ∨ i = .decode raw)
    (h : exec i s = .next t) :
    (∀ j, t.nb.read j = (raw[j]?).map reverse8) ∧ t.blen = raw.length ∧ t.cfg = s.cfg ∧ t.pending = s.pending := by
  obtain ⟨u, hload, hrest⟩ := exec_loading_next hi h
  obtain ⟨-, rfl⟩ := loadBuffer_next hload
  obtain ⟨hcfg, hnb, hblen, hpending⟩ := hrest.same_buffer
  exact ⟨fun j => by rw [hnb]; exact read_normalised raw j, hblen, hcfg, hpending⟩

end Sys2Proof.Machine

/-- Settles O25: the two sides of the capacity check. -/
theorem loadBuildsAFreshStream : Obligations.LoadBuildsAFreshStream := by
  unfold Obligations.LoadBuildsAFreshStream
  refine ⟨fun p hm => readBuffer_map_eq_ok.mpr ⟨hm, rfl⟩, fun raw s => ⟨fun hfit => ?_, fun hlarge => ?_⟩⟩
  · exact ⟨_, read_normalised raw, Memory.wf_writeAll _ _ _ List.Pairwise.nil, loadBuffer_of_le hfit⟩
  · exact loadBuffer_of_lt hlarge

/-- Settles O26. -/
theorem bufferAboveTheCapacityIsRefused : Obligations.BufferAboveTheCapacityIsRefused := by
  unfold Obligations.BufferAboveTheCapacityIsRefused
  exact fun raw s hlarge => ⟨loadBuffer_of_lt hlarge, execDecode_of_lt hlarge⟩

/-- Settles O27. -/
theorem streamBitIsMostSignificantFirst : Obligations.StreamBitIsMostSignificantFirst := by
  unfold Obligations.StreamBitIsMostSignificantFirst
  intro s i b hmsb hread
  simp only [State.streamBit, hread, byteBit, hmsb, if_true]

/-- Settles O28. -/
theorem streamAfterLoadIsTheRawBits : Obligations.StreamAfterLoadIsTheRawBits := by
  unfold Obligations.StreamAfterLoadIsTheRawBits
  intro raw s t j k b hmsb h hj hk
  rw [streamBit_of_loadBuffer h hj hk, if_pos hmsb]

/-- Settles O29. -/
theorem streamAfterLoadUnderEitherReading : Obligations.StreamAfterLoadUnderEitherReading := by
  unfold Obligations.StreamAfterLoadUnderEitherReading
  intro raw s t h
  refine ⟨fun hlsb j k b hj hk => ?_, ?_⟩
  · rw [streamBit_of_loadBuffer h hj hk, if_neg (by simp [hlsb])]
  · obtain ⟨hcur, hahead⟩ := loadBuffer_next_ahead h
    rw [← hahead.ends, hcur, Nat.zero_add]
    exact State.memRead_of_holdsAt (hcur ▸ hahead.holds)

/-- Settles O58: what follows LOAD in a DECODE writes no byte. -/
theorem frameOfTheLoadingOperations : Obligations.FrameOfTheLoadingOperations := by
  unfold Obligations.FrameOfTheLoadingOperations
  intro raw i s t hi h
  obtain ⟨hread, hblen, hcfg, hpending⟩ := exec_loading_buffer hi h
  refine ⟨hread, hblen, hcfg, hpending, ?_⟩
  rintro rfl
  obtain ⟨-, rfl⟩ := loadBuffer_next h
  exact ⟨rfl, rfl, rfl⟩

/-- Settles O1. -/
theorem resetLeavesAFreshEmptyPass : Obligations.ResetLeavesAFreshEmptyPass := by
  unfold Obligations.ResetLeavesAFreshEmptyPass
  refine fun c => ⟨⟨rfl, rfl, rfl, rfl, fun _ => rfl⟩, fun s _ => ?_⟩
  exact ⟨_, loadBuffer_of_le (raw := []) (Nat.zero_le _), rfl, rfl, rfl, rfl, rfl⟩

/-- Settles O2: with no bit in the stream every read of a bit ends. -/
theorem resetStateAnswersAsAnEmptyBuffer : Obligations.ResetStateAnswersAsAnEmptyBuffer := by
  unfold Obligations.ResetStateAnswersAsAnEmptyBuffer
  intro c
  have hempty : (State.resetWith c).bitsLeft = 0 := rfl
  have hended {n : Nat} (hn : 1 ≤ n) {found : List Bit → State} {ended : State} :
      reading (State.resetWith c) n found ended = .next ended := reading_ended (hempty ▸ hn)
  have htransition : transition (State.resetWith c) = .next (State.resetWith c).haltPass := by
    rw [transition_of_scanning rfl, stepScanning, hended le_rfl]
  have hscanning : (State.resetWith c).fsm = .scanning := rfl
  refine ⟨?_, ?_, fun n hn => ⟨?_, ?_⟩, rfl, rfl, ?_, ?_, fun _ => rfl, fun a p ha => if_neg (Nat.not_lt.mpr ha)⟩
  · rw [exec, execPeekbit, hended le_rfl]; rfl
  · rw [exec, execNextbit, hended le_rfl]; rfl
  · rw [exec, execReadraw, hended hn]; rfl
  · rw [exec, execReadrev, hended hn]; rfl
  · exact exec_step_of_transition (by simp [hscanning]) htransition
  · exact runPass_of_runLoop ((runLoop_succ (by simp [hscanning]) htransition _).trans (runLoop_of_halted rfl _))
end

section
/-! Proofs of the statements about the four reads (20_memory.md R57, 43_bitstream_reader.md R121 to R128) and about what
each operation can answer (R83, R170 to R176). -/

open Sys2Proof Sys2Proof.Machine

namespace Sys2Proof.Machine

/-! ### Fetching bits -/

theorem State.fetchBits_eq_bits {s : State} {n : Nat} {v : List Bit} :
    s.fetchBits n = .bits v ↔ n ≤ s.bitsLeft ∧ s.memRead s.cur n = .ok v := by
  rcases s.fetchBits_cases n with ⟨w, hf, hn, hm, -⟩ | ⟨hf, hn⟩ | ⟨f, hf, hn, hm⟩
  · simp [hf, hn, hm]
  · simp [hf, Nat.not_le.mpr hn]
  · simp [hf, hm]

theorem reading_of_fetchBits {s : State} {n : Nat} {v : List Bit} (h : s.fetchBits n = .bits v)
    (found : List Bit → State) (ended : State) : reading s n found ended = .next (found v) := by
  simp only [reading, h]

/-- R57: the bits fetched before and after the cursor has moved join. -/
theorem State.fetchBits_append {s t : State} {n k : Nat} {v w : List Bit} (hcfg : t.cfg = s.cfg) (hnb : t.nb = s.nb)
    (hblen : t.blen = s.blen) (hcur : t.cur = s.cur + n) (hv : s.fetchBits n = .bits v) (hw : t.fetchBits k = .bits w) :
    s.fetchBits (n + k) = .bits (v ++ w) := by
  obtain ⟨hn, hv⟩ := State.fetchBits_eq_bits.mp hv
  obtain ⟨hk, hw⟩ := State.fetchBits_eq_bits.mp hw
  rw [hcur, State.memRead_congr hcfg hnb] at hw
  refine State.fetchBits_eq_bits.mpr ⟨?_, State.memRead_append hv hw⟩
  simp only [State.bitsLeft, State.bitLen, hblen, hcur] at hn hk ⊢
  omega

theorem exec_readraw_of_fetchBits {n : BitVec 5} {s : State} {v : List Bit} (h : s.fetchBits n.toNat = .bits v) :
    exec (.readraw n) s = .next ((s.advance n.toNat).succeed (.bits v)) :=
  reading_of_fetchBits h (fun v => (s.advance n.toNat).succeed (.bits v)) _

theorem exec_readrev_of_fetchBits {n : BitVec 5} {s : State} {v : List Bit} (h : s.fetchBits n.toNat = .bits v) :
    exec (.readrev n) s = .next ((s.advance n.toNat).succeed (.number (natLsb v))) :=
  reading_of_fetchBits h (fun v => (s.advance n.toNat).succeed (.number (natLsb v))) _

/-- Everything READRAW can do. -/
theorem exec_readraw_next {n : BitVec 5} {s t : State} (h : exec (.readraw n) s = .next t) :
    (∃ v, s.fetchBits n.toNat = .bits v ∧ t = (s.advance n.toNat).succeed (.bits v)) ∨
    (s.bitsLeft < n.toNat ∧ t = s.raise .endOfStream) := by
  rcases reading_next h with ⟨v, hv, -, -, -, rfl⟩ | ⟨hn, rfl⟩
  · exact .inl ⟨v, hv, rfl⟩
  · exact .inr ⟨hn, rfl⟩

/-- A READRAW that answers bits has found them at the cursor and moved past them. -/
theorem exec_readraw_bits {n : BitVec 5} {s t : State} {v : List Bit} (h : exec (.readraw n) s = .next t)
    (hv : t.answer = some (.success (.bits v))) :
    s.fetchBits n.toNat = .bits v ∧ t = (s.advance n.toNat).succeed (.bits v) := by
  rcases exec_readraw_next h with ⟨w, hw, rfl⟩ | ⟨-, rfl⟩
  · cases hv
    exact ⟨hw, rfl⟩
  · cases hv

/-! ### Answers -/

/-- The last request was answered with status OK. -/
def State.AnswersOk (s : State) : Prop := ∃ r, s.answer = some (.success r)

theorem State.answersOk_succeed (s : State) (r : Result) : (s.succeed r).AnswersOk := ⟨r, rfl⟩

theorem answersOk_of_stepTimes {k : Nat} {s t : State} (h : stepTimes (k + 1) s = .next t) : t.AnswersOk := by
  induction k generalizing s with
  | zero =>
    obtain ⟨u, hu, h⟩ := andThen_next h
    cases h
    obtain ⟨v, -, rfl⟩ := stepOnce_next hu
    exact v.answersOk_succeed _
  | succ k ih =>
    obtain ⟨u, -, h⟩ := andThen_next h
    exact ih h

theorem answersOk_of_runPass {s t : State} (h : runPass s = .next t) : t.AnswersOk := by
  obtain ⟨u, -, rfl⟩ := runPass_next h
  exact u.answersOk_succeed _

/-- A read that answers with status OK what it finds can fail in one way only. -/
theorem reading_answer {s t : State} {n : Nat} {found : List Bit → State} (hfound : ∀ v, (found v).AnswersOk)
    (h : reading s n found (s.raise .endOfStream) = .next t) : t.AnswersOk ∨ t = s.raise .endOfStream := by
  rcases reading_next h with ⟨v, -, -, -, -, rfl⟩ | ⟨-, rfl⟩
  · exact .inl (hfound v)
  · exact .inr rfl

/-- The three ways in which an operation answers: status OK, a read at the end of the stream, an address that does not
fit its field (R83, R170). -/
theorem exec_answer {i : Instr} {s t : State} (h : exec i s = .next t) :
    t.AnswersOk ∨ (t = s.raise .endOfStream ∧ readsStream i) ∨
    (t = s.raise .invalidArgument ∧ ∃ address payload, i = .enccmd address payload ∧ 3 < address) := by
  cases i with
  | rev8 b => cases h; exact .inl (s.answersOk_succeed _)
  | enccmd address payload =>
    rcases execEnccmd_next h with ⟨hlarge, rfl⟩ | ⟨-, rfl⟩
    · exact .inr (.inr ⟨rfl, _, _, rfl, hlarge⟩)
    · exact .inl (s.answersOk_succeed _)
  | load raw =>
    obtain ⟨-, rfl⟩ := loadBuffer_next h
    exact .inl (State.answersOk_succeed _ _)
  | peekbit =>
    exact (reading_answer (fun _ => State.answersOk_succeed _ _) h).imp_right fun ht => .inl ⟨ht, .inl rfl⟩
  | nextbit =>
    exact (reading_answer (fun _ => State.answersOk_succeed _ _) h).imp_right fun ht => .inl ⟨ht, .inr (.inl rfl)⟩
  | readraw n =>
    exact (reading_answer (fun _ => State.answersOk_succeed _ _) h).imp_right fun ht =>
      .inl ⟨ht, .inr (.inr (.inl ⟨n, rfl⟩))⟩
  | readrev n =>
    exact (reading_answer (fun _ => State.answersOk_succeed _ _) h).imp_right fun ht =>
      .inl ⟨ht, .inr (.inr (.inr ⟨n, rfl⟩))⟩
  | step =>
    obtain ⟨u, -, rfl⟩ := stepOnce_next h
    exact .inl (u.answersOk_succeed _)
  | run => exact .inl (answersOk_of_runPass h)
  | reserved9 | reservedA | reservedB | reservedC | reservedD | reservedE | reservedF => cases h
  | decode raw =>
    obtain ⟨u, -, hrun⟩ := andThen_next h
    exact .inl (answersOk_of_runPass hrun)
  | cmdFrameB1B2 address payload => cases h; exact .inl (s.answersOk_succeed _)
  | cmdFrameW0W1 address payload => cases h; exact .inl (s.answersOk_succeed _)
  | frame length tag data => exact .inl (answersOk_of_stepTimes (execFrame_next h).2)
  | padding => exact .inl (answersOk_of_stepTimes (execPadding_next h).2)

end Sys2Proof.Machine

/-- Settles O16: the three ways in which an operation answers. -/
theorem statusesAreAnsweredOnlyByTheirOperations : Obligations.StatusesAreAnsweredOnlyByTheirOperations := by
  unfold Obligations.StatusesAreAnsweredOnlyByTheirOperations
  refine ⟨⟨rfl, rfl, rfl⟩, fun st => by cases st <;> decide, fun i s t h => ?_⟩
  rcases exec_answer h with ⟨r, hr⟩ | ⟨rfl, hi⟩ | ⟨rfl, hi⟩
  · exact ⟨_, hr, nofun, nofun⟩
  · exact ⟨_, rfl, fun _ => hi, nofun⟩
  · exact ⟨_, rfl, nofun, fun _ => hi⟩

/-- Settles O34: a failure is a status raised in the state before. -/
theorem failedOperationsWriteNoState : Obligations.FailedOperationsWriteNoState := by
  unfold Obligations.FailedOperationsWriteNoState
  intro i s t st h hst
  rcases exec_answer h with ⟨r, hr⟩ | ⟨rfl, -⟩ | ⟨rfl, -⟩
  · rw [hr] at hst
    cases hst
  · cases hst
    rfl
  · cases hst
    rfl

/-- Settles O35. -/
theorem readsOfZeroBitsSucceedEverywhere : Obligations.ReadsOfZeroBitsSucceedEverywhere := by
  unfold Obligations.ReadsOfZeroBitsSucceedEverywhere
  intro s
  have hfetch : s.fetchBits (0 : BitVec 5).toNat = .bits [] := State.fetchBits_eq_bits.mpr ⟨Nat.zero_le _, rfl⟩
  exact ⟨exec_readraw_of_fetchBits hfetch, exec_readrev_of_fetchBits hfetch⟩

/-- Settles O36: the fetches of two successive reads join. -/
theorem successiveReadsJoin : Obligations.SuccessiveReadsJoin := by
  unfold Obligations.SuccessiveReadsJoin
  intro s t u a b v w hwidth ht hv hu hw
  obtain ⟨hfetch, rfl⟩ := exec_readraw_bits ht hv
  obtain ⟨hfetch', rfl⟩ := exec_readraw_bits hu hw
  have hsum : (a + b).toNat = a.toNat + b.toNat := by
    rw [BitVec.toNat_add, Nat.mod_eq_of_lt (by omega)]
  have hjoin : s.fetchBits (a + b).toNat = .bits (v ++ w) := by
    rw [hsum]
    exact State.fetchBits_append (t := (s.advance a.toNat).succeed (.bits v)) rfl rfl rfl rfl hfetch hfetch'
  rw [exec_readraw_of_fetchBits hjoin, hsum]
  simp only [State.advance, State.succeed, Nat.add_assoc]

/-- Settles O37: the two operations fetch the same bits. -/
theorem readrevIsNatLsbOfReadraw : Obligations.ReadrevIsNatLsbOfReadraw := by
  unfold Obligations.ReadrevIsNatLsbOfReadraw
  intro s t n ht
  refine ⟨fun v hv => ?_, fun st hst => ?_⟩
  · obtain ⟨hfetch, rfl⟩ := exec_readraw_bits ht hv
    refine ⟨exec_readrev_of_fetchBits hfetch, ?_⟩
    rw [natMsb_eq_natLsb_reverse, List.reverse_reverse]
  · rcases exec_readraw_next ht with ⟨v, -, rfl⟩ | ⟨hfew, rfl⟩
    · cases hst
    · exact reading_ended hfew

/-- Settles O56: the two cases of each read. -/
theorem frameOfTheReads : Obligations.FrameOfTheReads := by
  unfold Obligations.FrameOfTheReads
  intro i s t hi h
  rcases hi with rfl | rfl | ⟨n, rfl⟩ | ⟨n, rfl⟩ <;>
    rcases reading_next h with ⟨v, -, -, -, -, rfl⟩ | ⟨-, rfl⟩ <;> simp
end

section
/-! Proofs of the statements that every admitted operation answers and none faults under the invariant
(93_implementation_defined.md list 1, logs 6 and 14), and about REV8, ENCCMD and the command frame (R100, R110, log
12). -/

open Sys2Proof Sys2Proof.Machine

namespace Sys2Proof.Machine

/-! ### Completion -/

theorem stepOnce_of_transition {s t : State} (h : transition s = .next t) :
    stepOnce s = .next (t.succeed (.stepped t.fsm s.emitted)) := by
  rw [stepOnce, h, andThen_of_next]

theorem State.Inv.stepTimes_completes {s : State} (h : s.Inv) (k : Nat) : ∃ t, stepTimes k s = .next t := by
  induction k generalizing s with
  | zero => exact ⟨s, rfl⟩
  | succ k ih =>
    obtain ⟨u, hu⟩ := h.transition_completes
    have hinv : (u.succeed (.stepped u.fsm s.emitted)).Inv := (h.transition_inv hu).with_host _ _
    obtain ⟨t, ht⟩ := ih hinv
    exact ⟨t, by rw [stepTimes, stepOnce_of_transition hu, andThen_of_next, ht]⟩

theorem State.Inv.runPass_completes {s : State} (h : s.Inv) : ∃ t, runPass s = .next t := by
  obtain ⟨t, ht⟩ := h.runLoop_completes (Nat.lt_succ_of_le s.mu_le)
  exact ⟨_, runPass_of_runLoop ht⟩

theorem execDecode_completes {raw : List Byte} {s : State} (hfit : raw.length ≤ s.cfg.bufBytes) :
    ∃ t, execDecode raw s = .next t := by
  have hload := loadBuffer_of_le hfit
  obtain ⟨t, ht⟩ := (loadBuffer_inv hload).runPass_completes
  exact ⟨t, by rw [execDecode, hload, andThen_of_next, ht]⟩

theorem State.Inv.exec_completes {s : State} {i : Instr} (h : s.Inv) (hwf : WellFormed s.cfg i = true)
    (hadmitted : alwaysAdmitted i = true) : ∃ t, exec i s = .next t := by
  cases i with
  | rev8 b => exact ⟨_, rfl⟩
  | enccmd address payload =>
    by_cases hlarge : 3 < address
    · exact ⟨_, exec_enccmd_of_three_lt hlarge payload s⟩
    · exact ⟨_, if_neg hlarge⟩
  | load raw => exact ⟨_, loadBuffer_of_le (of_decide_eq_true hwf)⟩
  | peekbit => exact h.reading_completes _ _ _
  | nextbit => exact h.reading_completes _ _ _
  | readraw n => exact h.reading_completes _ _ _
  | readrev n => exact h.reading_completes _ _ _
  | step =>
    obtain ⟨u, hu⟩ := h.transition_completes
    exact ⟨_, stepOnce_of_transition hu⟩
  | run => exact h.runPass_completes
  | decode raw => exact execDecode_completes (of_decide_eq_true hwf)
  | cmdFrameB1B2 address payload => exact ⟨_, rfl⟩
  | cmdFrameW0W1 address payload => exact ⟨_, rfl⟩
  | _ => cases hadmitted

/-- An admitted instruction that is not well-formed is a LOAD or a DECODE above the capacity. -/
theorem exec_of_not_wellFormed {s : State} {i : Instr} (hwf : WellFormed s.cfg i = false)
    (hadmitted : alwaysAdmitted i = true) : ∃ m, exec i s = .refused (.loadTooLong m) := by
  cases i with
  | load raw => exact ⟨_, loadBuffer_of_lt (Nat.not_le.mp (of_decide_eq_false hwf))⟩
  | decode raw => exact ⟨_, execDecode_of_lt (Nat.not_le.mp (of_decide_eq_false hwf))⟩
  | frame => cases hadmitted
  | _ => cases hwf

theorem State.Inv.exec_ne_fault {s : State} (h : s.Inv) (i : Instr) (f : Fault) : exec i s ≠ .fault f := by
  intro hfault
  cases hadmitted : alwaysAdmitted i with
  | true =>
    cases hwf : WellFormed s.cfg i with
    | true =>
      obtain ⟨t, ht⟩ := h.exec_completes hwf hadmitted
      rw [ht] at hfault
      cases hfault
    | false =>
      obtain ⟨m, hm⟩ := exec_of_not_wellFormed hwf hadmitted
      rw [hm] at hfault
      cases hfault
  | false =>
    cases i with
    | reserved9 | reservedA | reservedB | reservedC | reservedD | reservedE | reservedF => cases hfault
    | frame length tag data =>
      obtain ⟨t, ht⟩ := h.stepTimes_completes 5
      rw [exec, execFrame, ht] at hfault
      split at hfault <;> cases hfault
    | padding =>
      obtain ⟨t, ht⟩ := h.stepTimes_completes 1
      rw [exec, execPadding, ht] at hfault
      split at hfault <;> cases hfault
    | _ => cases hadmitted

/-! ### The operations that write no state -/

theorem firstByte_commandWordB1B2 (address : BitVec 2) (payload : Byte) :
    firstByte (commandWordB1B2 address payload) = commandByte address.toNat := by
  rw [commandByte_toNat_eq_append]
  exact BitVec.extractLsb'_append_eq_left

theorem secondByte_commandWordB1B2 (address : BitVec 2) (payload : Byte) :
    secondByte (commandWordB1B2 address payload) = payload :=
  BitVec.extractLsb'_append_eq_right

theorem firstByte_commandWordW0W1 (address : BitVec 2) (payload : Byte) :
    firstByte (commandWordW0W1 address payload) = reverse8 (commandByte address.toNat) := by
  refine BitVec.extractLsb'_append_eq_left.trans ?_
  revert address; decide

theorem secondByte_commandWordW0W1 (address : BitVec 2) (payload : Byte) :
    secondByte (commandWordW0W1 address payload) = reverse8 payload :=
  BitVec.extractLsb'_append_eq_right

end Sys2Proof.Machine

/-- Settles O8: an operation that completes answers. -/
theorem everyAdmittedOperationCompletes : Obligations.EveryAdmittedOperationCompletes := by
  unfold Obligations.EveryAdmittedOperationCompletes
  intro s i hs hwf hadmitted
  obtain ⟨t, ht⟩ := hs.exec_completes hwf hadmitted
  rcases exec_answer ht with ⟨r, hr⟩ | ⟨rfl, -⟩ | ⟨rfl, -⟩
  · exact ⟨t, _, ht, hr⟩
  · exact ⟨_, _, ht, rfl⟩
  · exact ⟨_, _, ht, rfl⟩

/-- Settles O9. -/
theorem nothingFaultsUnderTheInvariant : Obligations.NothingFaultsUnderTheInvariant := by
  unfold Obligations.NothingFaultsUnderTheInvariant
  exact fun _ i f hs => hs.exec_ne_fault i f

/-- Settles O24: both rows carry the two bytes of ENCCMD, one before their reversal and one after it. -/
theorem commandFrameRowsAnswerWhatEnccmdAnswers : Obligations.CommandFrameRowsAnswerWhatEnccmdAnswers := by
  unfold Obligations.CommandFrameRowsAnswerWhatEnccmdAnswers
  intro address payload s
  refine ⟨_, ?_, ?_, exec_enccmd_toNat address payload s, rfl⟩
  · rw [exec, execCmdFrameB1B2, firstByte_commandWordB1B2, secondByte_commandWordB1B2]
  · rw [exec, execCmdFrameW0W1, firstByte_commandWordW0W1, secondByte_commandWordW0W1]

/-- Settles O55: each of the four answers, and nothing else. -/
theorem frameOfTheStatelessOperations : Obligations.FrameOfTheStatelessOperations := by
  unfold Obligations.FrameOfTheStatelessOperations
  intro i s t hi h
  obtain ⟨a, rfl⟩ : ∃ a, t = { s with answer := a } := by
    rcases hi with ⟨b, rfl⟩ | ⟨address, payload, rfl⟩ | ⟨address, payload, rfl⟩ | ⟨address, payload, rfl⟩
    · cases h; exact ⟨_, rfl⟩
    · rcases execEnccmd_next h with ⟨-, rfl⟩ | ⟨-, rfl⟩ <;> exact ⟨_, rfl⟩
    · cases h; exact ⟨_, rfl⟩
    · cases h; exact ⟨_, rfl⟩
  exact ⟨fun _ => rfl, rfl, rfl, rfl, rfl, rfl, rfl, rfl, rfl, rfl⟩
end

section
/-! Proofs of the statements about STEP and RUN as a whole, and about FRAME and PADDING (44_frame_decoder.md: R147 to
R151; logs 13 and 14). -/

open Sys2Proof Sys2Proof.Machine

namespace Sys2Proof.Machine

/-! ### STEP after STEP -/

/-- The state with another last answer. -/
def State.withAnswer (s : State) (a : Option Answer) : State := { s with answer := a }

theorem State.samePass_withAnswer (s : State) (a : Option Answer) : s.SamePass (s.withAnswer a) where
  cfg := rfl
  nb := rfl
  blen := rfl
  cur := rfl
  fsm := rfl
  out := rfl
  length _ := rfl
  tag _ := rfl
  data _ := rfl

theorem reading_withAnswer {s t : State} {n : Nat} {found found' : List Bit → State} {ended : State} {a : Option Answer}
    (hfound : ∀ v, found' v = (found v).withAnswer a) (h : reading s n found ended = .next t) :
    reading (s.withAnswer a) n found' (ended.withAnswer a) = .next (t.withAnswer a) := by
  obtain ⟨t', ht', rfl⟩ := reading_related (R := fun u u' => u' = u.withAnswer a)
    ((s.samePass_withAnswer a).fetchBits_eq n) hfound rfl h
  exact ht'

/-- No transition looks at the last answer. -/
theorem transition_withAnswer {s t : State} (a : Option Answer) (h : transition s = .next t) :
    transition (s.withAnswer a) = .next (t.withAnswer a) := by
  cases hf : s.fsm with
  | scanning =>
    rw [transition_of_scanning hf] at h
    rw [transition_of_scanning (s := s.withAnswer a) hf]
    exact reading_withAnswer (fun v => by cases firstBit v <;> rfl) h
  | readLength =>
    rw [transition_of_readLength hf] at h
    rw [transition_of_readLength (s := s.withAnswer a) hf]
    exact reading_withAnswer (fun _ => rfl) h
  | readTag =>
    rw [transition_of_readTag hf] at h
    rw [transition_of_readTag (s := s.withAnswer a) hf]
    exact reading_withAnswer (fun _ => rfl) h
  | readData =>
    rw [transition_of_readData hf] at h
    rw [transition_of_readData (s := s.withAnswer a) hf]
    exact reading_withAnswer (fun _ => rfl) h
  | emit =>
    rw [transition_emit hf] at h
    cases h
    exact transition_emit hf
  | halted =>
    rw [transition_of_halted hf] at h
    cases h
    exact transition_of_halted hf

/-- A STEP is its transition and its answer, whatever the answer before. -/
theorem stepTimes_succ {s t : State} (h : transition s = .next t) (k : Nat) (a : Option Answer) :
    stepTimes (k + 1) (s.withAnswer a) = stepTimes k (t.withAnswer (some (.success (.stepped t.fsm s.emitted)))) := by
  rw [stepTimes, stepOnce_of_transition (transition_withAnswer a h), andThen_of_next]
  rfl

/-- The loop of RUN is as many STEPs, but for the answers on the way, which it does not give. -/
theorem stepTimes_of_runLoop {n : Nat} {s t : State} (h : runLoop n s = .next t) (a : Option Answer) :
    ∃ k b, k ≤ n ∧ stepTimes k (s.withAnswer a) = .next (t.withAnswer b) ∧ t.fsm = .halted := by
  induction n using Nat.strong_induction_on generalizing s a with
  | h n ih =>
    rcases runLoop_next h with ⟨hf, rfl⟩ | ⟨j, u, rfl, hf, hu, h⟩
    · exact ⟨0, a, Nat.zero_le _, rfl, hf⟩
    · obtain ⟨k, b, hk, hsteps, hhalted⟩ := ih j (Nat.lt_succ_self j) h (some (.success (.stepped u.fsm s.emitted)))
      exact ⟨k + 1, b, Nat.succ_le_succ hk, (stepTimes_succ hu k a).trans hsteps, hhalted⟩

/-! ### The only fault of a transition is an unwritten byte -/

theorem State.memRead_error {s : State} {a n : Nat} {f : Fault} (h : s.memRead a n = .error f) :
    ∃ j, f = .unwrittenByte j := by
  induction n generalizing a with
  | zero => cases h
  | succ n ih =>
    rw [State.memRead] at h
    split at h
    · cases h
    · rename_i hrest
      cases h
      exact ih hrest
    · rename_i hbit
      cases h
      unfold State.streamBit at hbit
      split at hbit <;> cases hbit
      exact ⟨_, rfl⟩

theorem reading_fault {s : State} {n : Nat} {found : List Bit → State} {ended : State} {f : Fault}
    (h : reading s n found ended = .fault f) : ∃ j, f = .unwrittenByte j := by
  unfold reading at h
  rcases s.fetchBits_cases n with ⟨v, hf, -⟩ | ⟨hf, -⟩ | ⟨g, hf, -, hm⟩ <;> rw [hf] at h <;> cases h
  exact State.memRead_error hm

theorem transition_fault {s : State} {f : Fault} (h : transition s = .fault f) : ∃ j, f = .unwrittenByte j := by
  unfold transition at h
  split at h
  · exact reading_fault h
  · exact reading_fault h
  · exact reading_fault h
  · exact reading_fault h
  · cases h
  · cases h

theorem andThen_fault {o : Host.Outcome State Fault Refusal} {k : State → Host.Outcome State Fault Refusal} {f : Fault}
    (h : andThen o k = .fault f) : o = .fault f ∨ ∃ u, o = .next u ∧ k u = .fault f := by
  cases o with
  | next u => exact .inr ⟨u, rfl, h⟩
  | fault g => exact .inl h
  | refused r => cases h

/-- With more fuel than the measure the loop of RUN does not run out of it, in any state. -/
theorem runLoop_fault {k : Nat} {s : State} {f : Fault} (hk : s.mu < k) (h : runLoop k s = .fault f) :
    ∃ j, f = .unwrittenByte j := by
  induction k generalizing s with
  | zero => exact absurd hk (Nat.not_lt_zero _)
  | succ k ih =>
    by_cases hf : s.fsm = .halted
    · rw [runLoop_of_halted hf] at h
      cases h
    · rw [runLoop, if_neg hf] at h
      rcases andThen_fault h with h | ⟨u, hu, h⟩
      · exact transition_fault h
      · by_cases hfu : u.fsm = .halted
        · rw [runLoop_of_halted hfu] at h
          cases h
        · exact ih (by have := transition_mu_lt hu hfu; omega) h

/-! ### Transitions over fetched bits, from any state -/

/-- Of bits that are fetched together the first can be fetched, and the others once the cursor is past them. -/
theorem State.fetchBits_split {s t : State} {n k : Nat} {v w : List Bit} (h : s.fetchBits (n + k) = .bits (v ++ w))
    (hv : v.length = n) (hcfg : t.cfg = s.cfg) (hnb : t.nb = s.nb) (hblen : t.blen = s.blen)
    (hcur : t.cur = s.cur + n) : s.fetchBits n = .bits v ∧ t.fetchBits k = .bits w := by
  obtain ⟨hn, hm⟩ := State.fetchBits_eq_bits.mp h
  obtain ⟨hfirst, hrest⟩ := State.memRead_split hm
  rw [List.take_left' hv] at hfirst
  rw [List.drop_left' hv] at hrest
  refine ⟨State.fetchBits_eq_bits.mpr ⟨by omega, hfirst⟩, State.fetchBits_eq_bits.mpr ⟨?_, ?_⟩⟩
  · simp only [State.bitsLeft, State.bitLen, hblen, hcur] at hn ⊢
    omega
  · rw [hcur, State.memRead_congr hcfg hnb, hrest]

/-- R142. -/
theorem transition_scanning_of_fetchBits {s : State} {b : Bit} (hf : s.fsm = .scanning)
    (h : s.fetchBits 1 = .bits [b]) :
    transition s = .next { s with cur := s.cur + 1, fsm := if b then .readLength else .scanning } := by
  rw [transition_of_scanning hf, stepScanning, reading_of_fetchBits h]
  cases b
  · simp [firstBit, State.advance, hf]
  · rfl

/-- R143. -/
theorem transition_length_of_fetchBits {s : State} {length : BitVec 5} (hf : s.fsm = .readLength)
    (h : s.fetchBits 5 = .bits (bitsLsb 5 length.toNat)) :
    transition s = .next { s with cur := s.cur + 5, len := length, fsm := .readTag } := by
  rw [transition_of_readLength hf, stepReadLength, reading_of_fetchBits h, natLsb_bitsLsb, ← BitVec.toNat_ofNat]
  simp [State.advance]

/-- R144. -/
theorem transition_tag_of_fetchBits {s : State} {tag : BitVec 2} (hf : s.fsm = .readTag)
    (h : s.fetchBits 2 = .bits (bitsMsb 2 tag.toNat)) :
    transition s = .next { s with cur := s.cur + 2, tag := tag, fsm := .readData } := by
  rw [transition_of_readTag hf, stepReadTag, reading_of_fetchBits h, natMsb_bitsMsb, ← BitVec.toNat_ofNat]
  simp [State.advance]

/-- R145. -/
theorem transition_data_of_fetchBits {s : State} {data : List Bit} (hf : s.fsm = .readData)
    (h : s.fetchBits s.len.toNat = .bits data) :
    transition s = .next { s with cur := s.cur + s.len.toNat, data := data, fsm := .emit } := by
  rw [transition_of_readData hf, stepReadData, reading_of_fetchBits h]
  rfl

theorem State.emitted_eq_none {s : State} (hf : s.fsm ≠ .emit) : s.emitted = none := by
  unfold State.emitted
  split <;> simp_all

/-- The five STEPs over a frame at the cursor of a scanning decoder. -/
theorem stepTimes_frame {s : State} {length : BitVec 5} {tag : BitVec 2} {data : List Bit} (hf : s.fsm = .scanning)
    (hd : data.length = length.toNat) (h : s.fetchBits (8 + data.length) = .bits (frameBits length tag data)) :
    stepTimes 5 s = .next { s with
      cur := s.cur + (8 + data.length), len := length, tag := tag, data := data,
      out := s.out ++ [{ tag := tag, length := length, data := data }],
      answer := some (.success (.stepped .scanning (some { tag := tag, length := length, data := data }))) } := by
  rw [show 8 + data.length = 1 + (5 + (2 + data.length)) by omega] at h
  obtain ⟨hmarker, h⟩ := State.fetchBits_split (v := [true]) (t := { s with cur := s.cur + 1, fsm := .readLength }) h
    rfl rfl rfl rfl rfl
  obtain ⟨hlength, h⟩ := State.fetchBits_split (s := { s with cur := s.cur + 1, fsm := .readLength })
    (t := { s with cur := s.cur + 1 + 5, len := length, fsm := .readTag }) h (length_bitsLsb _ _) rfl rfl rfl rfl
  obtain ⟨htag, hdata⟩ := State.fetchBits_split (s := { s with cur := s.cur + 1 + 5, len := length, fsm := .readTag })
    (t := { s with cur := s.cur + 1 + 5 + 2, len := length, tag := tag, fsm := .readData }) h (length_bitsMsb 2 _)
    rfl rfl rfl rfl
  rw [hd] at hdata
  have hstart : transition s = .next { s with cur := s.cur + 1, fsm := .readLength } :=
    transition_scanning_of_fetchBits hf hmarker
  calc stepTimes 5 s = stepTimes 5 (s.withAnswer s.answer) := rfl
    _ = _ := by
      rw [stepTimes_succ hstart, stepTimes_succ (transition_length_of_fetchBits rfl hlength),
        stepTimes_succ (transition_tag_of_fetchBits rfl htag), stepTimes_succ (transition_data_of_fetchBits rfl hdata),
        stepTimes_succ (transition_emit rfl)]
      simp [stepTimes, State.withAnswer, State.emitted, State.message, hf, hd, Nat.add_assoc]

theorem State.itemAtCursor_iff {s : State} {bits : List Bit} :
    s.itemAtCursor bits = true ↔ s.fsm = .scanning ∧ s.fetchBits bits.length = .bits bits := decide_eq_true_iff

/-- One bit can be fetched exactly where the stream holds it below its end. -/
theorem State.fetchBits_one {s : State} {b : Bit} :
    s.fetchBits 1 = .bits [b] ↔ s.cur < s.bitLen ∧ s.streamBit s.cur = .ok b := by
  rw [State.fetchBits_eq_bits, State.bitsLeft]
  refine and_congr ⟨fun h => by omega, fun h => by omega⟩ ⟨fun h => State.memRead_get h (i := 0) rfl, fun h => ?_⟩
  simp only [State.memRead, h]

end Sys2Proof.Machine

/-- Settles O43. -/
theorem stepAndRunInHaltedChangeNothing : Obligations.StepAndRunInHaltedChangeNothing := by
  unfold Obligations.StepAndRunInHaltedChangeNothing
  intro s hf
  refine ⟨?_, runPass_of_runLoop (runLoop_of_halted hf _)⟩
  have hstep := exec_step_of_transition (by simp [hf]) (transition_of_halted hf)
  rwa [hf] at hstep

/-- Settles O44: the loop of RUN is STEP repeated. -/
theorem runIsRepeatedStepWithinTheBound : Obligations.RunIsRepeatedStepWithinTheBound := by
  unfold Obligations.RunIsRepeatedStepWithinTheBound
  intro s hs
  obtain ⟨t, ht⟩ := hs.runLoop_completes (Nat.lt_succ_of_le s.mu_le)
  obtain ⟨k, b, hk, hsteps, hhalted⟩ := stepTimes_of_runLoop ht s.answer
  have hrun := runPass_of_runLoop ht
  exact ⟨k, _, hk, hsteps, hhalted, hrun⟩

/-- Settles O45: the transition of a STEP lowers the measure, and RUN has more fuel than the measure. -/
theorem everyStepLowersTheMeasure : Obligations.EveryStepLowersTheMeasure := by
  unfold Obligations.EveryStepLowersTheMeasure
  refine ⟨fun s t h hrunning => ?_, State.mu_le, fun s h => ?_⟩
  · obtain ⟨u, hu, rfl⟩ := stepOnce_next h
    have hlt : u.mu < s.mu := transition_mu_lt hu hrunning
    exact hlt
  · rcases andThen_fault h with h | ⟨u, -, h⟩
    · obtain ⟨j, hj⟩ := runLoop_fault (Nat.lt_succ_of_le s.mu_le) h
      cases hj
    · cases h

/-- Settles O46: LOAD leaves the queue alone, and RUN then starts where the RUN of DECODE does. -/
theorem decodeIsLoadThenRun : Obligations.DecodeIsLoadThenRun := by
  unfold Obligations.DecodeIsLoadThenRun
  intro s raw q hfit hpending
  have hload := loadBuffer_of_le (s := { s with pending := q }) hfit
  obtain ⟨t, ht⟩ := (loadBuffer_inv hload).runPass_completes
  have hdecode : decode (encode (.load raw)) = .ok (.load raw) :=
    Laws.RoundTrip.load raw s.cfg (decide_eq_true hfit)
  have hfirst := (step_of_decode hpending hdecode).trans
    (loadBuffer_of_le (s := { s with pending := encode .run :: q }) hfit)
  refine ⟨_, t, hfirst, (step_of_decode (i := .run) (q := q) rfl rfl).trans ht, ?_⟩
  rw [exec, execDecode, hload, andThen_of_next, ht]

/-- Settles O53: five STEPs where the frame stands at the cursor, and a refusal elsewhere. -/
theorem frameRowConsumesAWholeFrame : Obligations.FrameRowConsumesAWholeFrame := by
  unfold Obligations.FrameRowConsumesAWholeFrame
  intro s length tag data hd
  refine ⟨fun hf h => ?_, fun h => ?_⟩
  · have hitem : s.itemAtCursor (frameBits length tag data) = true :=
      State.itemAtCursor_iff.mpr ⟨hf, by rwa [length_frameBits]⟩
    rw [exec, execFrame, if_pos ⟨hitem, hd⟩, stepTimes_frame hf hd h]
  · refine if_neg fun hitem => ?_
    obtain ⟨hf, hbits⟩ := State.itemAtCursor_iff.mp hitem.1
    rw [length_frameBits] at hbits
    exact h.elim (absurd hf) (absurd hbits)

/-- Settles O54: one STEP where a 0 bit stands at the cursor, and a refusal elsewhere. -/
theorem paddingRowConsumesOneZeroBit : Obligations.PaddingRowConsumesOneZeroBit := by
  unfold Obligations.PaddingRowConsumesOneZeroBit
  refine fun s => ⟨fun hf hcur hbit => ?_, fun h => ?_⟩
  · have hfetch : s.fetchBits 1 = .bits [false] := State.fetchBits_one.mpr ⟨hcur, hbit⟩
    have hstep := stepTimes_succ (transition_scanning_of_fetchBits hf hfetch) 0 s.answer
    rw [State.emitted_eq_none (by simp [hf])] at hstep
    rw [exec, execPadding, if_pos ((State.itemAtCursor_iff (bits := [false])).mpr ⟨hf, hfetch⟩)]
    refine hstep.trans ?_
    simp [stepTimes, State.withAnswer, hf]
  · refine if_neg fun hitem => ?_
    obtain ⟨hf, hfetch⟩ := (State.itemAtCursor_iff (bits := [false])).mp hitem
    obtain ⟨hcur, hbit⟩ := State.fetchBits_one.mp hfetch
    rcases h with h | h | h
    · exact h hf
    · exact absurd hcur (Nat.not_lt.mpr h)
    · exact h hbit

/-- Settles O57: no piece of an operation within a pass writes the buffer, and in Halted STEP and RUN change nothing. -/
theorem frameOfTheDecoderOperations : Obligations.FrameOfTheDecoderOperations := by
  unfold Obligations.FrameOfTheDecoderOperations
  intro i s t hi h
  have hpass : startsPass i = false := by
    rcases hi with rfl | rfl | ⟨length, tag, data, rfl⟩ | rfl <;> rfl
  obtain ⟨hcfg, hnb, hblen, hpending⟩ := (exec_withinPass h hpass).same_buffer
  refine ⟨fun j => by rw [hnb], hblen, hcfg, hpending, fun hf => ?_⟩
  obtain ⟨hstep, hrun⟩ := stepAndRunInHaltedChangeNothing s hf
  rcases hi with rfl | rfl | ⟨length, tag, data, rfl⟩ | rfl
  · rw [hstep] at h
    cases h
    exact ⟨rfl, rfl, rfl, rfl, rfl⟩
  · rw [hrun] at h
    cases h
    exact ⟨rfl, rfl, rfl, rfl, rfl⟩
  · cases hf.symm.trans (execFrame_next h).1
  · cases hf.symm.trans (execPadding_next h).1
end

section
/-! Proofs of the statement that stale registers are never read (10_state.md R25 to R27, R36). -/

open Sys2Proof Sys2Proof.Machine

namespace Sys2Proof.Machine

/-! ### States that agree on every meaningful register -/

theorem State.SameMeaning.samePass {s s' : State} (h : s.SameMeaning s') : s.SamePass s' := by
  obtain ⟨⟨hcfg, hnb, hblen, hcur, hfsm, hout, -⟩, hlen, htag, hdata⟩ := h
  exact ⟨hcfg.symm, hnb.symm, hblen.symm, hcur.symm, hfsm.symm, hout.symm, fun hf => (hlen hf).symm,
    fun hf => (htag hf).symm, fun hf => (hdata hf).symm⟩

theorem State.SameMeaning.pending_eq {s s' : State} (h : s.SameMeaning s') : s'.pending = s.pending := by
  obtain ⟨⟨-, -, -, -, -, -, hpending⟩, -, -, -⟩ := h
  exact hpending

theorem State.SamePass.sameMeaning {s s' : State} (h : s.SamePass s') (hpending : s'.pending = s.pending) :
    s.SameMeaning s' where
  rest := ⟨h.cfg.symm, h.nb.symm, h.blen.symm, h.cur.symm, h.fsm.symm, h.out.symm, hpending⟩
  length hf := (h.length hf).symm
  tag hf := (h.tag hf).symm
  data hf := (h.data hf).symm

/-- The last answer is not among the fields that must agree. -/
theorem State.SameMeaning.withAnswer {s s' : State} (h : s.SameMeaning s') (a a' : Option Answer) :
    (s.withAnswer a).SameMeaning (s'.withAnswer a') :=
  ⟨h.rest, h.length, h.tag, h.data⟩

theorem State.SameMeaning.advance {s s' : State} (h : s.SameMeaning s') (n : Nat) :
    (s.advance n).SameMeaning (s'.advance n) := by
  obtain ⟨⟨hcfg, hnb, hblen, hcur, hfsm, hout, hpending⟩, hlen, htag, hdata⟩ := h
  exact ⟨⟨hcfg, hnb, hblen, congrArg (· + n) hcur, hfsm, hout, hpending⟩, hlen, htag, hdata⟩

theorem State.SameMeaning.transition_related {s s' t : State} (h : s.SameMeaning s') (ht : transition s = .next t) :
    ∃ t', transition s' = .next t' ∧ t.SameMeaning t' := by
  obtain ⟨t', ht', hpass⟩ := h.samePass.transition_related ht
  obtain ⟨-, -, -, hpending, -⟩ := transition_frame ht
  obtain ⟨-, -, -, hpending', -⟩ := transition_frame ht'
  exact ⟨t', ht', hpass.sameMeaning (by rw [hpending', hpending, h.pending_eq])⟩

/-- The message emitted is made of registers that are meaningful in Emit. -/
theorem State.SameMeaning.emitted_eq {s s' : State} (h : s.SameMeaning s') : s'.emitted = s.emitted := by
  have hfsm : s.fsm = s'.fsm := h.samePass.fsm
  by_cases hf : s.fsm = .emit
  · simp only [State.emitted, State.message, ← hfsm, hf, h.length (.inr (.inr hf)), h.tag (.inr hf), h.data hf]
  · rw [State.emitted_eq_none hf, State.emitted_eq_none (hfsm ▸ hf)]

/-! ### Operations on two such states -/

/-- Two states that agree on every meaningful register and were answered alike. -/
def State.SameReply (s s' : State) : Prop := s.SameMeaning s' ∧ s'.answer = s.answer

theorem State.SameMeaning.succeed {s s' : State} (h : s.SameMeaning s') (r : Result) :
    (s.succeed r).SameReply (s'.succeed r) :=
  ⟨h.withAnswer _ _, rfl⟩

theorem State.SameMeaning.raise {s s' : State} (h : s.SameMeaning s') (st : Status) :
    (s.raise st).SameReply (s'.raise st) :=
  ⟨h.withAnswer _ _, rfl⟩

theorem State.SameMeaning.reading_related {s s' t : State} {n : Nat} {found found' : List Bit → State} {st : Status}
    (h : s.SameMeaning s') (hfound : ∀ v, (found v).SameReply (found' v))
    (ht : reading s n found (s.raise st) = .next t) :
    ∃ t', reading s' n found' (s'.raise st) = .next t' ∧ t.SameReply t' :=
  Machine.reading_related (h.samePass.fetchBits_eq n) hfound (h.raise st) ht

theorem State.SameMeaning.stepOnce_related {s s' t : State} (h : s.SameMeaning s') (ht : stepOnce s = .next t) :
    ∃ t', stepOnce s' = .next t' ∧ t.SameReply t' := by
  obtain ⟨u, hu, rfl⟩ := stepOnce_next ht
  obtain ⟨u', hu', hsame⟩ := h.transition_related hu
  refine ⟨_, stepOnce_of_transition hu', ?_⟩
  rw [h.emitted_eq, ← hsame.samePass.fsm]
  exact hsame.succeed _

theorem State.SameReply.stepTimes_related {s s' t : State} (h : s.SameReply s') {k : Nat}
    (ht : stepTimes k s = .next t) : ∃ t', stepTimes k s' = .next t' ∧ t.SameReply t' := by
  induction k generalizing s s' with
  | zero => cases ht; exact ⟨s', rfl, h⟩
  | succ k ih =>
    obtain ⟨u, hu, ht⟩ := andThen_next ht
    obtain ⟨u', hu', hsame⟩ := h.1.stepOnce_related hu
    obtain ⟨t', ht', hend⟩ := ih hsame ht
    exact ⟨t', by rw [stepTimes, hu', andThen_of_next, ht'], hend⟩

theorem State.SameMeaning.stepTimes_succ_related {s s' t : State} (h : s.SameMeaning s') {k : Nat}
    (ht : stepTimes (k + 1) s = .next t) : ∃ t', stepTimes (k + 1) s' = .next t' ∧ t.SameReply t' := by
  obtain ⟨u, hu, ht⟩ := andThen_next ht
  obtain ⟨u', hu', hsame⟩ := h.stepOnce_related hu
  obtain ⟨t', ht', hend⟩ := hsame.stepTimes_related ht
  exact ⟨t', by rw [stepTimes, hu', andThen_of_next, ht'], hend⟩

theorem State.SameMeaning.runPass_related {s s' t : State} (h : s.SameMeaning s') (ht : runPass s = .next t) :
    ∃ t', runPass s' = .next t' ∧ t.SameReply t' := by
  obtain ⟨u, hu, rfl⟩ := runPass_next ht
  obtain ⟨u', hu', hpass⟩ := h.samePass.runLoop_related hu
  rw [h.samePass.bitLen_eq] at hu'
  obtain ⟨-, -, -, hpending⟩ := (withinPass_runLoop hu).1.same_buffer
  obtain ⟨-, -, -, hpending'⟩ := (withinPass_runLoop hu').1.same_buffer
  have hsame : u.SameMeaning u' := hpass.sameMeaning (by rw [hpending', hpending, h.pending_eq])
  refine ⟨_, runPass_of_runLoop hu', ?_⟩
  rw [← hpass.out]
  exact hsame.succeed _

theorem State.SameMeaning.loadBuffer_related {s s' t : State} {raw : List Byte} (h : s.SameMeaning s')
    (ht : loadBuffer raw s = .next t) : ∃ t', loadBuffer raw s' = .next t' ∧ t.SameReply t' := by
  have hcfg : s.cfg = s'.cfg := h.samePass.cfg
  obtain ⟨hfit, rfl⟩ := loadBuffer_next ht
  refine ⟨_, loadBuffer_of_le (hcfg ▸ hfit), ⟨⟨hcfg.symm, rfl, rfl, rfl, rfl, rfl, h.pending_eq⟩, ?_, ?_, ?_⟩, rfl⟩ <;>
    simp

theorem State.SameMeaning.itemAtCursor_eq {s s' : State} (h : s.SameMeaning s') (bits : List Bit) :
    s'.itemAtCursor bits = s.itemAtCursor bits := by
  rw [State.itemAtCursor, State.itemAtCursor, h.samePass.fsm, h.samePass.fetchBits_eq]

theorem State.SameMeaning.exec_related {i : Instr} {s s' t : State} (h : s.SameMeaning s') (ht : exec i s = .next t) :
    ∃ t', exec i s' = .next t' ∧ t.SameReply t' := by
  cases i with
  | rev8 b => cases ht; exact ⟨_, rfl, h.succeed _⟩
  | enccmd address payload =>
    rcases execEnccmd_next ht with ⟨hlarge, rfl⟩ | ⟨hfits, rfl⟩
    · exact ⟨_, if_pos hlarge, h.raise _⟩
    · exact ⟨_, if_neg (Nat.not_lt.mpr hfits), h.succeed _⟩
  | load raw => exact h.loadBuffer_related ht
  | peekbit => exact h.reading_related (fun _ => h.succeed _) ht
  | nextbit => exact h.reading_related (fun _ => (h.advance 1).succeed _) ht
  | readraw n => exact h.reading_related (fun _ => (h.advance n.toNat).succeed _) ht
  | readrev n => exact h.reading_related (fun _ => (h.advance n.toNat).succeed _) ht
  | step => exact h.stepOnce_related ht
  | run => exact h.runPass_related ht
  | reserved9 | reservedA | reservedB | reservedC | reservedD | reservedE | reservedF => cases ht
  | decode raw =>
    obtain ⟨u, hu, ht⟩ := andThen_next ht
    obtain ⟨u', hu', hsame, -⟩ := h.loadBuffer_related hu
    obtain ⟨t', ht', hend⟩ := hsame.runPass_related ht
    exact ⟨t', by rw [exec, execDecode, hu', andThen_of_next, ht'], hend⟩
  | cmdFrameB1B2 address payload => cases ht; exact ⟨_, rfl, h.succeed _⟩
  | cmdFrameW0W1 address payload => cases ht; exact ⟨_, rfl, h.succeed _⟩
  | frame length tag data =>
    rw [exec, execFrame] at ht
    rw [exec, execFrame, h.itemAtCursor_eq]
    split at ht
    · rename_i hitem
      rw [if_pos hitem]
      exact h.stepTimes_succ_related ht
    · cases ht
  | padding =>
    rw [exec, execPadding] at ht
    rw [exec, execPadding, h.itemAtCursor_eq]
    split at ht
    · rename_i hitem
      rw [if_pos hitem]
      exact h.stepTimes_succ_related ht
    · cases ht

end Sys2Proof.Machine

/-- Settles O52: each operation reads meaningful registers alone. -/
theorem staleFieldsAreNeverRead : Obligations.StaleFieldsAreNeverRead := by
  unfold Obligations.StaleFieldsAreNeverRead
  exact fun _ _ _ _ h ht => h.exec_related ht
end

section
/-! Proofs of the statements that DECODE is the recursive function of R150 and leaves at most one message a byte
(44_frame_decoder.md: R150, R153, R156). -/

open Sys2Proof Sys2Proof.Machine

namespace Sys2Proof.Machine

/-! ### The message after a marker, whole or cut -/

theorem Message.wf_ofFields {w : List Bit} (h : 7 + natLsb (w.take 5) ≤ w.length) : (Message.ofFields w).wf := by
  have hlt : natLsb (w.take 5) < 2 ^ 5 :=
    (natLsb_lt _).trans_le (Nat.pow_le_pow_right (by decide) (List.length_take_le 5 w))
  rw [Message.wf, Message.ofFields, BitVec.toNat_ofNat, Nat.mod_eq_of_lt hlt, List.length_take, List.length_drop]
  omega

theorem Message.length_bits_ofFields {w : List Bit} (h : 7 + natLsb (w.take 5) ≤ w.length) :
    (Message.ofFields w).bits.length = 8 + natLsb (w.take 5) := by
  rw [Message.bits, length_frameBits, Message.ofFields, List.length_take, List.length_drop]
  omega

/-- Zero bits after the last one leave the number of a reversed field as it is. -/
theorem natLsb_append_replicate_false (v : List Bit) (n : Nat) : natLsb (v ++ List.replicate n false) = natLsb v := by
  have hzero : natLsb (List.replicate n false) = 0 := by
    induction n with
    | zero => rfl
    | succ n ih => simp [List.replicate_succ, natLsb, ih]
  rw [natLsb_append, hzero, Nat.mul_zero, Nat.add_zero]

/-- A marker with too few bits after it for the length they give is a proper beginning of a frame (R153): zero bits
complete it. -/
theorem exists_frame_of_cut {w : List Bit} (h : w.length < 7 + natLsb (w.take 5)) :
    ∃ (m : Message) (rest : List Bit), m.wf ∧ m.bits = (true :: w) ++ rest ∧ rest ≠ [] := by
  have hlt : natLsb (w.take 5) < 2 ^ 5 :=
    (natLsb_lt _).trans_le (Nat.pow_le_pow_right (by decide) (List.length_take_le 5 w))
  have htake : natLsb ((w ++ List.replicate 38 false).take 5) = natLsb (w.take 5) := by
    rw [List.take_append, List.take_replicate, natLsb_append_replicate_false]
  have hlong : 7 + natLsb ((w ++ List.replicate 38 false).take 5) ≤ (w ++ List.replicate 38 false).length := by
    rw [htake, List.length_append, List.length_replicate]
    omega
  have hcount := Message.length_bits_ofFields hlong
  have hbits := Message.bits_ofFields_append hlong
  rw [htake] at hcount
  rw [← List.cons_append] at hbits
  rcases List.append_eq_append_iff.mp hbits with ⟨a, hframe, -⟩ | ⟨rest, hframe, -⟩
  · have hle : (Message.ofFields (w ++ List.replicate 38 false)).bits.length ≤ (true :: w).length := by
      rw [hframe, List.length_append]
      exact Nat.le_add_right _ _
    rw [hcount, List.length_cons] at hle
    omega
  · refine ⟨_, rest, Message.wf_ofFields hlong, hframe, ?_⟩
    rintro rfl
    rw [hframe, List.append_nil, List.length_cons] at hcount
    omega

/-! ### The fields of R150 at a marker -/

theorem bitAt_add (S : List Bit) (c k : Nat) : bitAt S (c + k) = ((S.drop c).getD k false).toNat := by
  rw [bitAt, List.getD_eq_getElem?_getD, List.getD_eq_getElem?_getD, List.getElem?_drop]

theorem lengthAt_of_drop {S w : List Bit} {c : Nat} {b : Bit} (h : S.drop c = b :: w) (hw : 5 ≤ w.length) :
    lengthAt S c = natLsb (w.take 5) := by
  match w, hw with
  | b0 :: b1 :: b2 :: b3 :: b4 :: _, _ => simp [lengthAt, bitAt_add, h, natLsb_five]

theorem tagAt_of_drop {S w : List Bit} {c : Nat} {b : Bit} (h : S.drop c = b :: w) (hw : 7 ≤ w.length) :
    tagAt S c = natMsb ((w.drop 5).take 2) := by
  match w, hw with
  | _ :: _ :: _ :: _ :: _ :: u0 :: u1 :: _, _ => simp [tagAt, bitAt_add, h, natMsb_two]

theorem messageAt_of_drop {S w : List Bit} {c : Nat} {b : Bit} (h : S.drop c = b :: w) (hw : 7 ≤ w.length) :
    messageAt S c = Message.ofFields w := by
  have hdata : S.drop (c + 8) = w.drop 7 := by rw [← List.drop_drop, h]; rfl
  rw [messageAt, Message.ofFields, lengthAt_of_drop h (by omega), tagAt_of_drop h hw, hdata]

/-! ### One call of `dec` -/

theorem dec_of_drop_nil {S : List Bit} {c : Nat} (h : S.drop c = []) (fuel : Nat) (out : List Message) :
    dec S (fuel + 1) c out = out := by
  rw [dec, if_pos (List.drop_eq_nil_iff.mp h)]

theorem dec_of_padding {S w : List Bit} {c : Nat} (h : S.drop c = false :: w) (fuel : Nat) (out : List Message) :
    dec S (fuel + 1) c out = dec S fuel (c + 1) out := by
  have hbit : bitAt S c = 0 := by simpa [h] using bitAt_add S c 0
  have hc : ¬ S.length ≤ c := by rw [← List.drop_eq_nil_iff, h]; exact List.cons_ne_nil _ _
  rw [dec, if_neg hc, if_pos hbit]

/-- The three tests of R150 for the end of the stream are one: whether the bits after the marker hold the frame. -/
theorem dec_of_marker {S w : List Bit} {c : Nat} (h : S.drop c = true :: w) (fuel : Nat) (out : List Message) :
    dec S (fuel + 1) c out =
      if w.length < 7 + natLsb (w.take 5) then out
      else dec S fuel (c + 8 + natLsb (w.take 5)) (out ++ [Message.ofFields w]) := by
  have hbit : bitAt S c = 1 := by simpa [h] using bitAt_add S c 0
  have hlength : S.length - c = w.length + 1 := by simpa using congrArg List.length h
  rw [dec, if_neg (by omega), if_neg (by omega)]
  by_cases h5 : w.length < 5
  · rw [if_pos (by omega), if_pos (by omega)]
  rw [if_neg (by omega)]
  by_cases h7 : w.length < 7
  · rw [if_pos (by omega), if_pos (by omega)]
  rw [if_neg (by omega), lengthAt_of_drop h (by omega), messageAt_of_drop h (by omega)]
  exact if_congr ⟨fun _ => by omega, fun _ => by omega⟩ rfl rfl

/-! ### RUN's loop and `dec` -/

/-- The pass ends in Halted after at most `n` transitions, with these messages in OUT. -/
def State.EndsWithin (s : State) (n : Nat) (out : List Message) : Prop :=
  ∃ t, t.fsm = .halted ∧ t.out = out ∧ ∀ k, runLoop (k + n) s = .next t

theorem State.EndsSilentlyWithin.endsWithin {s : State} {n : Nat} (h : s.EndsSilentlyWithin n) :
    s.EndsWithin n s.out :=
  h

theorem State.EndsWithin.mono {s : State} {n m : Nat} {out : List Message} (h : s.EndsWithin n out) (hnm : n ≤ m) :
    s.EndsWithin m out := by
  obtain ⟨t, hf, hout, hrun⟩ := h
  obtain ⟨d, rfl⟩ := Nat.exists_eq_add_of_le hnm
  exact ⟨t, hf, hout, fun k => by rw [Nat.add_comm n d, ← Nat.add_assoc, hrun]⟩

theorem State.EndsWithin.of_runLoop {s u : State} {n m : Nat} {out : List Message} (h : u.EndsWithin m out)
    (hrun : ∀ k, runLoop (k + n) s = runLoop k u) : s.EndsWithin (m + n) out := by
  obtain ⟨t, hf, hout, ht⟩ := h
  exact ⟨t, hf, hout, fun k => by rw [← Nat.add_assoc, hrun, ht]⟩

theorem State.afterFrame_ofFields_cur (s : State) {w : List Bit} (h : 7 + natLsb (w.take 5) ≤ w.length) :
    (s.afterFrame (Message.ofFields w)).cur = s.cur + 8 + natLsb (w.take 5) := by
  rw [Nat.add_assoc, ← Message.length_bits_ofFields h]
  rfl

/-- A marker ahead with enough bits after it is a whole frame, and after it the rest of the stream is ahead. -/
theorem State.Ahead.frame {S w : List Bit} {s : State} (h : s.Ahead (S.drop s.cur)) (hS : S.drop s.cur = true :: w)
    (hwhole : 7 + natLsb (w.take 5) ≤ w.length) :
    s.Ahead ((Message.ofFields w).bits ++ (w.drop 7).drop (natLsb (w.take 5))) ∧
    (s.afterFrame (Message.ofFields w)).Ahead (S.drop (s.afterFrame (Message.ofFields w)).cur) := by
  have hfields := Message.bits_ofFields_append hwhole
  have hdrop : S.drop (s.afterFrame (Message.ofFields w)).cur = (w.drop 7).drop (natLsb (w.take 5)) := by
    rw [s.afterFrame_ofFields_cur hwhole, Nat.add_assoc, ← List.drop_drop, hS, ← hfields,
      List.drop_left' (Message.length_bits_ofFields hwhole)]
  rw [hS, ← hfields] at h
  exact ⟨h, hdrop.symm ▸ h.consume rfl rfl rfl rfl⟩

/-- R150: from a scanning decoder that has the rest of the stream ahead, RUN's loop adds to OUT what `dec` adds. -/
theorem endsWithin_dec {S : List Bit} {fuel : Nat} {s : State} (hf : s.fsm = .scanning) (h : s.Ahead (S.drop s.cur))
    (hfuel : S.length - s.cur < fuel) :
    s.EndsWithin (5 * (S.length - s.cur) + 5) (dec S fuel s.cur s.out) := by
  induction fuel generalizing s with
  | zero => exact absurd hfuel (Nat.not_lt_zero _)
  | succ fuel ih =>
    have hrunning : s.fsm ≠ .halted := by simp [hf]
    have hleft : (S.drop s.cur).length = S.length - s.cur := List.length_drop
    match hS : S.drop s.cur with
    | [] =>
      rw [dec_of_drop_nil hS]
      rw [hS] at h
      exact (endsSilently_of_haltPass hrunning (transition_end hf h) 0).endsWithin.mono (by omega)
    | false :: w =>
      rw [dec_of_padding hS]
      have hw : S.drop (s.cur + 1) = w := by rw [← List.drop_drop, hS]; rfl
      rw [hS] at h hleft
      have hrest : (s.advance 1).Ahead (S.drop (s.advance 1).cur) :=
        hw.symm ▸ h.consume (v := [false]) rfl rfl rfl rfl
      have hend := ih (s := s.advance 1) hf hrest (by simp at hleft ⊢; omega)
      exact (hend.of_runLoop (runLoop_succ hrunning (transition_padding hf h))).mono (by simp at hleft ⊢; omega)
    | true :: w =>
      rw [dec_of_marker hS]
      split
      · rename_i hcut
        obtain ⟨m, rest, hm, hbits, hrest⟩ := exists_frame_of_cut hcut
        rw [hS] at h
        exact (endsSilently_of_cut_frame hf hm h hbits (List.cons_ne_nil _ _) hrest).endsWithin.mono (by omega)
      · rename_i hwhole
        have hcur := s.afterFrame_ofFields_cur (Nat.not_lt.mp hwhole)
        obtain ⟨hframe, hrest⟩ := h.frame hS (Nat.not_lt.mp hwhole)
        have hm := Message.wf_ofFields (Nat.not_lt.mp hwhole)
        rw [hS, List.length_cons] at hleft
        rw [← hcur]
        have hend := ih (s := s.afterFrame (Message.ofFields w)) hf hrest (by omega)
        exact (hend.of_runLoop (runLoop_frame hf hm hframe)).mono (by omega)

/-- The raw byte 0x01 is the frame of the empty message with tag 0 (R156). -/
theorem rawStream_replicate_one (n : Nat) : rawStream true (List.replicate n 0x01) =
    layout (List.replicate n (0, { tag := 0, length := 0, data := [] })) := by
  have hbyte : rawStream true [0x01] = Message.bits { tag := 0, length := 0, data := [] } := by decide
  induction n with
  | zero => rfl
  | succ n ih =>
    calc rawStream true (List.replicate (n + 1) 0x01)
        = rawStream true [0x01] ++ rawStream true (List.replicate n 0x01) := by
          simp only [rawStream, List.replicate_succ, List.flatMap_cons, List.flatMap_nil, List.append_nil]
      _ = layout (List.replicate (n + 1) (0, { tag := 0, length := 0, data := [] })) := by
          rw [hbyte, ih]
          rfl

end Sys2Proof.Machine

/-- Settles O47: LOAD puts the stream of the buffer ahead of a scanning decoder at address 0. -/
theorem decodeIsTheRecursiveFunction : Obligations.DecodeIsTheRecursiveFunction := by
  unfold Obligations.DecodeIsTheRecursiveFunction
  intro s raw fuel hfit hfuel
  obtain ⟨u, hload, hscan, hempty, -, hahead⟩ := loadBuffer_ahead hfit
  obtain ⟨hcur, -⟩ := loadBuffer_next_ahead hload
  have hends := hahead.ends
  rw [hcur, Nat.zero_add] at hends
  obtain ⟨t, hhalted, hout, hrun⟩ := endsWithin_dec (S := rawStream s.cfg.msbFirstOfReversed raw) (fuel := fuel) hscan
    (by rwa [hcur, List.drop_zero]) (by rw [hcur, length_rawStream]; exact hfuel)
  rw [hcur, hempty] at hout
  have hloop : runLoop (5 * u.bitLen + 5) u = .next t := by
    simpa [hcur, hends] using hrun 0
  have hpass := runPass_of_runLoop hloop
  refine ⟨t.succeed (.messages t.out), ?_, hhalted, hout, rfl⟩
  rw [exec, execDecode, hload, andThen_of_next, hpass]

/-- Settles O51: the invariant bounds OUT, and raw bytes 0x01 are frames of length 0 with nothing between them. -/
theorem messagesAreBoundedByBytes : Obligations.MessagesAreBoundedByBytes := by
  unfold Obligations.MessagesAreBoundedByBytes
  refine ⟨fun s t raw h => ?_, fun s n hfit hmsb => ?_⟩
  · obtain ⟨-, hblen, -, -⟩ := exec_loading_buffer (.inr rfl) h
    obtain ⟨u, hload, hrest⟩ := exec_loading_next (.inr rfl) h
    exact hblen ▸ (hrest.inv (loadBuffer_inv hload)).out_length_le
  · have hstream : rawStream s.cfg.msbFirstOfReversed (List.replicate n 0x01) =
        layout (List.replicate n (0, { tag := 0, length := 0, data := [] })) ++ List.replicate 0 false := by
      rw [hmsb, rawStream_replicate_one, List.replicate_zero, List.append_nil]
    obtain ⟨t, ht, hout, -⟩ := framesDecodeToTheirMessagesInOrder s _ _ 0 (by simpa using hfit)
      (fun x hx => by rw [List.eq_of_mem_replicate hx]; rfl) hstream
    exact ⟨t, ht, by rw [hout, List.map_replicate]⟩
end
